-- ==== Sys2Proof/Word.lean ====
section
/-! DEFINITION. The words of the block: registers, characters, command and response words (00_scope.md R6, R7, R9). -/

namespace Sys2Proof

/-- A 32-bit register value; `+`, `-`, `*` on it are the silent wraparound of 00_scope.md R7. -/
abbrev Word := BitVec 32

/-- An 8-bit value: an input byte or a character (00_scope.md R9). -/
abbrev Byte := BitVec 8

/-- Text: a finite sequence of characters, first character first (00_scope.md R9). -/
abbrev Text := List Byte

/-- A command word (30_encoding.md R80). -/
abbrev CmdWord := BitVec 40

/-- A response word (30_encoding.md R81). -/
abbrev RespWord := BitVec 36

/-- `u32(e)` of a natural number: the number modulo 2^32 (00_scope.md R7). -/
def u32 (n : Nat) : Word := BitVec.ofNat 32 n

/-- `zext_32(byte)` (30_encoding.md R83). -/
def zext (b : Byte) : Word := b.setWidth 32

end Sys2Proof
end

