-- ==== Sys2Proof/Machine/Distance.lean ====
section
/-! DEFINITION. The unit-cost edit distance (43_comparator.md R189), computed row by row. The rows run over suffixes of the
texts where the reference method of R190 runs over prefixes; R190 accepts any method that gives the minimum of R189
(DEDUCED, safe, log entry 10). -/

namespace Sys2Proof.Machine

/-- The distances from the empty text to every suffix of a text, the whole text first. -/
def levBase : Text → List Nat
  | [] => [0]
  | _ :: ys => (ys.length + 1) :: levBase ys

/-- From the distances from a text to every suffix of `ys`, those from the text with `c` before it: delete `c`, insert the
suffix's first character, or keep or substitute. -/
def levStep (c : Byte) : Text → List Nat → List Nat
  | [], d :: _ => [d + 1]
  | y :: ys, d :: e :: row =>
    match levStep c ys (e :: row) with
    | [] => []
    | r :: rs => min (min (d + 1) (r + 1)) (e + if c = y then 0 else 1) :: r :: rs
  | _, _ => []

/-- The distances from `xs` to every suffix of `ys`, the whole of `ys` first. -/
def levRow : Text → Text → List Nat
  | [], ys => levBase ys
  | x :: xs, ys => levStep x ys (levRow xs ys)

/-- `lev(x, y)` (43_comparator.md R189). -/
def lev (xs ys : Text) : Nat := (levRow xs ys).headD 0

end Sys2Proof.Machine
end

