-- ==== Sys2Proof/Config.lean ====
section
/-! DEFINITION. What an implementation fixes (00_scope.md R6, 10_state.md R46). The three OPEN parameters are one opaque
constant without a body: no proof can see their values, so what is proved holds for every choice (log entry 3). -/

namespace Sys2Proof

/-- The OPEN parameters of 00_scope.md R6. A capacity is held as one less than its value, so that its range
1 .. 2^32 - 1 is exactly the range of the field. -/
structure Params where
  /-- `DIGEST_SEED`, any 32-bit value (92 D8). -/
  digestSeed : Word
  /-- `SIG_CAP - 1` (92 D16). -/
  sigCapPred : Fin 4294967295
  /-- `CMP_CAP - 1` (92 D16). -/
  cmpCapPred : Fin 4294967295
  deriving DecidableEq, Repr, Inhabited

/-- `SIG_CAP`, the capacity in characters of each signature half (00_scope.md R6). -/
def Params.sigCap (p : Params) : Nat := p.sigCapPred.val + 1

/-- `CMP_CAP`, the capacity in characters of each comparator buffer (00_scope.md R6). -/
def Params.cmpCap (p : Params) : Nat := p.cmpCapPred.val + 1

/-- The defaults of 00_scope.md R6, with which the vectors of 95_test_vectors.md are computed; used by tests only
(the seed is `[from general knowledge, not in source]`, log entry 14). -/
def Params.default : Params := ⟨0x28021967, ⟨4294967294, by decide⟩, ⟨4294967294, by decide⟩⟩

/-- The parameters of the block. -/
opaque Config.params : Params

/-- `PRIME` (00_scope.md R6). -/
def Config.prime : Word := 16777619

/-- `MIN_BS`, the minimum block size (00_scope.md R6). -/
def Config.minBs : Word := 3

/-- `SIG_HALF`, the retry threshold on the length of the first half (00_scope.md R6). -/
def Config.sigHalf : Nat := 32

end Sys2Proof
end

