-- ==== Sys2Proof/Machine/State.lean ====
section
/-! DEFINITION. Everything the block holds (10_state.md R20), plus what stands on its pins, as plain data. -/

namespace Sys2Proof.Machine

/-- `EST`, the engine state (10_state.md R33). The value 3 never occurs and has no constructor. -/
inductive EngState where
  /-- No engine has been created since reset. -/
  | idle
  /-- An attempt is in progress; `RETRY` is 1 exactly here (10_state.md R37). -/
  | running
  /-- The signature is complete. -/
  | finalized
  deriving DecidableEq, Repr

/-- The spec's faults (60_exceptions.md R235). Each is a response of the block and a next state, never a stop. -/
inductive FaultCode where
  /-- `F_ILLEGAL`, 60_exceptions.md R237. -/
  | illegal
  /-- `F_NOENGINE`, 60_exceptions.md R238. -/
  | noEngine
  /-- `F_NOTRUNNING`, 60_exceptions.md R239. -/
  | notRunning
  /-- `F_OVERFLOW`, 60_exceptions.md R240. -/
  | overflow
  deriving DecidableEq, Repr

/-- The status of a response (30_encoding.md R85). -/
inductive Status where
  /-- `OK`. -/
  | ok
  /-- `E_INVALID_INPUT`, 60_exceptions.md R232. -/
  | invalidInput
  /-- `E_FORMAT_A`, 60_exceptions.md R233. -/
  | formatA
  /-- `E_FORMAT_B`, 60_exceptions.md R233. -/
  | formatB
  /-- `E_BSIZE`, 60_exceptions.md R234. -/
  | bsize
  /-- One of the faults. -/
  | fault (f : FaultCode)
  deriving DecidableEq, Repr

/-- What the host does at the input pins `cmd` and `rst` (30_encoding.md R92). DESIGN CHOICE, safe (log entries 1, 5): the host's
actions are a list in State, and a step takes the first. -/
inductive HostInput where
  /-- A command word is presented on `cmd`. It is transferred, unless `rst` is asserted: then it is not accepted. -/
  | cmd (w : CmdWord)
  /-- `rst` is asserted between commands, and stays so until released (70_reset_and_hazards.md R260). -/
  | rst
  /-- The command word `w` is transferred and `rst` is asserted before its response, when the first `n` characters of its
  text (or all of it, if it has fewer) are out: the command is abandoned without a response (70_reset_and_hazards.md R260). -/
  | rstDuring (w : CmdWord) (n : Nat)
  /-- `rst` is released (70_reset_and_hazards.md R260). -/
  | release
  deriving DecidableEq, Repr

/-- One transfer at the output ports (30_encoding.md R92). -/
inductive Transfer where
  /-- One character on `txt`. -/
  | txt (c : Byte)
  /-- One response word on `resp`. -/
  | resp (w : RespWord)
  deriving DecidableEq, Repr

/-- The state of the block (10_state.md R20) and of its pins. -/
structure State where
  /-- `H1`, the unweighted sum (10_state.md R21). -/
  h1 : Word
  /-- `H2`, the weighted sum (10_state.md R22). -/
  h2 : Word
  /-- `H3`, the order-sensitive shift-XOR accumulator (10_state.md R23). -/
  h3 : Word
  /-- `IDX`, the window slot the next advance overwrites, 0 .. 6 (10_state.md R24, log entry 4). -/
  idx : Fin 7
  /-- `WIN[0..6]`, the last seven bytes (10_state.md R25). -/
  win : Vector Byte 7
  /-- `ACC[0..1]`, the digest words (10_state.md R27). -/
  acc : Vector Word 2
  /-- `BS`, the current block size (10_state.md R30). -/
  bs : Word
  /-- `LEN`, the declared length (10_state.md R31). -/
  len : Word
  /-- `POS`, the steps performed in the current attempt (10_state.md R32). -/
  pos : Word
  /-- `EST`, the engine state (10_state.md R33). -/
  est : EngState
  /-- `FAULT`, the sticky fault bit (10_state.md R35). -/
  fault : Bool
  /-- `FCAUSE`, the first fault's code (10_state.md R35). -/
  fcause : BitVec 4
  /-- `SIG[0..1]`, the signature halves (20_memory.md R61). -/
  sig : Vector Text 2
  /-- `CMP[0..1]`, the comparator's operand buffers (20_memory.md R62). -/
  cmp : Vector Text 2
  /-- The level of the input `rst`: asserted (30_encoding.md R92, 70_reset_and_hazards.md R260, log entry 5). -/
  rst : Bool
  /-- The model's own field: what the host does next at the input pins, oldest first (log entry 1). -/
  inputs : List HostInput
  /-- The model's own field: what the last step transferred at the output ports, in order (log entry 2). -/
  sent : List Transfer
  deriving DecidableEq, Repr

/-- Why a step could stop with a fault. There is no constructor, so nobody raises one: every fault of the spec is a response,
after which the block takes the next command (60_exceptions.md R236, R244). Safe. -/
inductive Fault where
  deriving DecidableEq, Repr

/-- Why a step could refuse. -/
inductive Refusal where
  /-- Raised only by an arm of `exec` whose command has no meaning yet; no arm is left so. Safe: the machine stops where
  the hardware goes on. -/
  | notModelled (mnemonic : String)
  deriving DecidableEq, Repr

/-- The state right after reset under given parameters (10_state.md R45). `inputs` and `sent` are the model's own and start
empty, and `rst` has just been released (DESIGN CHOICE, log entries 1, 2 and 5). -/
def State.resetWith (p : Params) : State where
  h1 := 0
  h2 := 0
  h3 := 0
  idx := 0
  win := Vector.replicate 7 0
  acc := Vector.replicate 2 p.digestSeed
  bs := 0
  len := 0
  pos := 0
  est := .idle
  fault := false
  fcause := 0
  sig := Vector.replicate 2 []
  cmp := Vector.replicate 2 []
  rst := false
  inputs := []
  sent := []

/-- The state right after reset (10_state.md R45, 70_reset_and_hazards.md R260). -/
def State.reset : State := State.resetWith Config.params

end Sys2Proof.Machine
end

