-- ==== Sys2Proof/Machine/Flags.lean ====
section
/-! DEFINITION. Status codes, the response word, the `STATUS` view and the level outputs. The block has no condition codes
(10_state.md R42). -/

namespace Sys2Proof.Machine

/-- The code of a fault (60_exceptions.md R235). -/
def FaultCode.code : FaultCode → BitVec 4
  | .illegal => 8
  | .noEngine => 9
  | .notRunning => 10
  | .overflow => 11

/-- The code of a status (30_encoding.md R85). -/
def Status.code : Status → BitVec 4
  | .ok => 0
  | .invalidInput => 1
  | .formatA => 2
  | .formatB => 3
  | .bsize => 4
  | .fault f => f.code

/-- The response word: `status = resp[35:32]`, `data = resp[31:0]` (30_encoding.md R81). -/
def respWord (st : Status) (data : Word) : RespWord := st.code ++ data

/-- `EST` as its two bits (10_state.md R33). -/
def EngState.bits : EngState → BitVec 2
  | .idle => 0
  | .running => 1
  | .finalized => 2

/-- `RETRY`, the retry flag: 1 exactly when `EST = Running` (10_state.md R37). -/
def retryFlag (s : State) : Bool := s.est == .running

/-- `STATUS`: `EST` in bits 1:0, `RETRY` in bit 2, `FAULT` in bit 3, `FCAUSE` in bits 7:4, zeros above (10_state.md R34). -/
def statusWord (s : State) : Word :=
  0#24 ++ (s.fcause ++ (BitVec.ofBool s.fault ++ (BitVec.ofBool (retryFlag s) ++ s.est.bits)))

/-- The level output `running` (30_encoding.md R92). -/
def runningPin (s : State) : Bool := retryFlag s

/-- The level output `done` (30_encoding.md R92). -/
def donePin (s : State) : Bool := s.est == .finalized

/-- The level output `fault` (30_encoding.md R92). -/
def faultPin (s : State) : Bool := s.fault

/-- `cmd_ready` between commands: 0 exactly while `rst` is asserted (30_encoding.md R92, 70_reset_and_hazards.md R260,
log entry 18). -/
def cmdReady (s : State) : Bool := !s.rst

end Sys2Proof.Machine
end

