-- ==== Sys2Proof/Machine/Ops.lean ====
section
/-! DEFINITION. The named operations over the state that commands share: the character spaces, the response, the fault
mechanism, and reset. -/

namespace Sys2Proof.Machine

/-- The outcome of a command. -/
abbrev Out := Host.Outcome State Fault Refusal

/-- `MemRead(space, i)`: the character at index `i`, if the cell exists (00_scope.md R8, 20_memory.md R61). -/
def memRead (space : Text) (i : Nat) : Option Byte := space[i]?

/-- `MemAppend(space, c)`: append one character at index `length` (00_scope.md R8). -/
def memAppend (space : Text) (c : Byte) : Text := space ++ [c]

/-- `MemClear(space)`: the length becomes 0 (00_scope.md R8). -/
def memClear (_space : Text) : Text := []

/-- The form every character space keeps: no signature half is longer than `SIG_CAP`, no comparator buffer longer than
`CMP_CAP` (20_memory.md R75). A list has no other way to be out of form: cell `i` exists exactly below the length. -/
def Memory.wf (p : Params) (s : State) : Bool :=
  s.sig[0].length ≤ p.sigCap && s.sig[1].length ≤ p.sigCap && s.cmp[0].length ≤ p.cmpCap && s.cmp[1].length ≤ p.cmpCap

/-- `ACC[k] <- v`. -/
def setAcc (k : Fin 2) (v : Word) (s : State) : State := { s with acc := s.acc.set k v }

/-- `SIG[k] <- t` as a whole. -/
def setSig (k : Fin 2) (t : Text) (s : State) : State := { s with sig := s.sig.set k t }

/-- `CMP[x] <- t` as a whole. -/
def setCmp (x : Fin 2) (t : Text) (s : State) : State := { s with cmp := s.cmp.set x t }

/-- `respond(status, data, text)`: the text goes out first, character by character, then the one response word
(00_scope.md R8, 20_memory.md R63, 30_encoding.md R92). -/
def respond (st : Status) (data : Word) (text : Text) (s : State) : State :=
  { s with sent := text.map .txt ++ [.resp (respWord st data)] }

/-- `raise Fault(code)`, the block's trap entry: the first fault is recorded, later ones leave the record; the response
carries this command's own code; nothing else changes (60_exceptions.md R236). -/
def raiseFault (f : FaultCode) (s : State) : State :=
  { s with
    fault := true
    fcause := if s.fault then s.fcause else f.code
    sent := [.resp (respWord (.fault f) 0)] }

/-- Asserting `rst`: every piece of state takes its reset value and `rst` stays asserted (70_reset_and_hazards.md R260);
`partialText` is the part of an abandoned command's text that is already out (log entry 5). The host's further actions are
not the block's. There is no other return from a fault (60_exceptions.md R244). -/
def assertReset (p : Params) (partialText : Text) (s : State) : State :=
  { State.resetWith p with rst := true, inputs := s.inputs, sent := partialText.map .txt }

/-- Releasing `rst`: the block is in its reset state and ready for a command (70_reset_and_hazards.md R260). -/
def releaseReset (p : Params) (s : State) : State := { State.resetWith p with inputs := s.inputs }

end Sys2Proof.Machine
end

