-- ==== Sys2Proof/Machine/Operands.lean ====
section
/-! DEFINITION. The one operand form that names state: the register number of `RDREG` (10_state.md R39). The selectors of
`ACC` and `CMP` and the byte, character and length operands stand as they are (30_encoding.md R83). -/

namespace Sys2Proof.Machine

/-- The registers and views `RDREG` can read (10_state.md R39). -/
inductive Reg where
  /-- `H1`. -/
  | h1
  /-- `H2`. -/
  | h2
  /-- `H3`. -/
  | h3
  /-- `IDX`. -/
  | idx
  /-- `SUM`, the view of 10_state.md R38. -/
  | sum
  /-- `WIN[i]`. -/
  | win (i : Fin 7)
  /-- `ACC[k]`. -/
  | acc (k : Fin 2)
  /-- `BS`. -/
  | bs
  /-- `LEN`. -/
  | len
  /-- `POS`. -/
  | pos
  /-- `STATUS`, the view of 10_state.md R34. -/
  | status
  /-- `LEN1` and `LEN2`: the length of `SIG[k]` (10_state.md R36). -/
  | sigLen (k : Fin 2)
  /-- `CALEN` and `CBLEN`: the length of `CMP[x]` (10_state.md R36). -/
  | cmpLen (x : Fin 2)
  deriving DecidableEq, Repr

/-- The register a number names; `none` for a reserved number (10_state.md R39). -/
def Reg.ofNumber (n : BitVec 8) : Option Reg :=
  if n = 0x00 then some .h1
  else if n = 0x01 then some .h2
  else if n = 0x02 then some .h3
  else if n = 0x03 then some .idx
  else if n = 0x04 then some .sum
  else if n = 0x08 then some (.win 0)
  else if n = 0x09 then some (.win 1)
  else if n = 0x0A then some (.win 2)
  else if n = 0x0B then some (.win 3)
  else if n = 0x0C then some (.win 4)
  else if n = 0x0D then some (.win 5)
  else if n = 0x0E then some (.win 6)
  else if n = 0x10 then some (.acc 0)
  else if n = 0x11 then some (.acc 1)
  else if n = 0x20 then some .bs
  else if n = 0x21 then some .len
  else if n = 0x22 then some .pos
  else if n = 0x23 then some .status
  else if n = 0x24 then some (.sigLen 0)
  else if n = 0x25 then some (.sigLen 1)
  else if n = 0x26 then some (.cmpLen 0)
  else if n = 0x27 then some (.cmpLen 1)
  else none

/-- `SUM = u32(H1 + H2 + H3)` (10_state.md R38). -/
def sumView (s : State) : Word := s.h1 + s.h2 + s.h3

/-- `view(reg)`: what `RDREG` reads (10_state.md R39). -/
def Reg.view (r : Reg) (s : State) : Word :=
  match r with
  | .h1 => s.h1
  | .h2 => s.h2
  | .h3 => s.h3
  | .idx => u32 s.idx.val
  | .sum => sumView s
  | .win i => zext s.win[i]
  | .acc k => s.acc[k]
  | .bs => s.bs
  | .len => s.len
  | .pos => s.pos
  | .status => statusWord s
  | .sigLen k => u32 s.sig[k].length
  | .cmpLen x => u32 s.cmp[x].length

end Sys2Proof.Machine
end

