-- ==== Sys2Proof/Machine/Digest.lean ====
section
/-! DEFINITION. The digest accumulators: `DIG.RST`, `DIG.UPD`, `DIG.VAL` (41_digest.md), over operations the engine shares. -/

namespace Sys2Proof.Machine

/-- The recurrence of a digest word: multiply first, XOR second (41_digest.md R122). -/
def mulXor (v : Word) (byte : Byte) : Word := (v * Config.prime) ^^^ zext byte

/-- `reset()` on `ACC[k]` (41_digest.md R121). -/
def digestReset (p : Params) (k : Fin 2) (s : State) : State := setAcc k p.digestSeed s

/-- `update(byte)` on `ACC[k]` (41_digest.md R122). -/
def digestUpdate (k : Fin 2) (byte : Byte) (s : State) : State := setAcc k (mulXor s.acc[k] byte) s

/-- `DIG.RST k` (41_digest.md R121). -/
def execDigRst (k : Fin 2) (s : State) : Out := .next (respond .ok 0 [] (digestReset Config.params k s))

/-- `DIG.UPD k, byte` (41_digest.md R122). -/
def execDigUpd (k : Fin 2) (byte : Byte) (s : State) : Out := .next (respond .ok 0 [] (digestUpdate k byte s))

/-- `DIG.VAL k` (41_digest.md R123). -/
def execDigVal (k : Fin 2) (s : State) : Out := .next (respond .ok s.acc[k] [] s)

end Sys2Proof.Machine
end

