-- ==== Sys2Proof/Machine/Rolling.lean ====
section
/-! DEFINITION. The rolling checksum: `ROLL.RST` and `ROLL.ADV` (40_rolling.md), over operations the engine shares. -/

namespace Sys2Proof.Machine

/-- The reset state of the rolling checksum: a zeroed window and three zero sums (40_rolling.md R101). -/
def rollReset (s : State) : State :=
  { s with h1 := 0, h2 := 0, h3 := 0, idx := 0, win := Vector.replicate 7 0 }

/-- `advance(byte)`: `H2` from the `H1` of before, `H1` losing the byte that leaves the window, the window slot, the index,
and the shift-XOR accumulator (40_rolling.md R102). The checksum it returns is `sumView` of the result. -/
def advance (byte : Byte) (s : State) : State :=
  { s with
    h2 := s.h2 - s.h1 + 7 * zext byte
    h1 := s.h1 + zext byte - zext s.win[s.idx]
    win := s.win.set s.idx byte
    idx := s.idx + 1
    h3 := (s.h3 <<< 5) ^^^ zext byte }

/-- `ROLL.RST` (40_rolling.md R101). -/
def execRollRst (s : State) : Out := .next (respond .ok 0 [] (rollReset s))

/-- `ROLL.ADV byte` (40_rolling.md R102). -/
def execRollAdv (byte : Byte) (s : State) : Out :=
  let t := advance byte s
  .next (respond .ok (sumView t) [] t)

end Sys2Proof.Machine
end

