-- ==== Sys2Proof/Machine/Text.lean ====
section
/-! DEFINITION. Characters, decimal spelling, and the signature grammar (00_scope.md R9, 20_memory.md R64, 30_encoding.md R94,
43_comparator.md R185, R186). -/

namespace Sys2Proof.Machine

/-- The character `:` (30_encoding.md R94). -/
def colon : Byte := 0x3A

/-- `ALPHA[i]`: `A` .. `Z`, `a` .. `z`, `0` .. `9`, `+`, `/` (20_memory.md R64) with the values of 30_encoding.md R94. -/
def alphaChar (i : BitVec 6) : Byte :=
  let n := i.toNat
  if n < 26 then BitVec.ofNat 8 (0x41 + n)
  else if n < 52 then BitVec.ofNat 8 (0x61 + n - 26)
  else if n < 62 then BitVec.ofNat 8 (0x30 + n - 52)
  else if n = 62 then 0x2B
  else 0x2F

/-- `idx(c)`, the inverse of `ALPHA` (30_encoding.md R94). -/
def alphaIndex (c : Byte) : Option (BitVec 6) :=
  let n := c.toNat
  if 0x41 ≤ n ∧ n ≤ 0x5A then some (BitVec.ofNat 6 (n - 0x41))
  else if 0x61 ≤ n ∧ n ≤ 0x7A then some (BitVec.ofNat 6 (n - 0x61 + 26))
  else if 0x30 ≤ n ∧ n ≤ 0x39 then some (BitVec.ofNat 6 (n - 0x30 + 52))
  else if n = 0x2B then some 62
  else if n = 0x2F then some 63
  else none

/-- The character is one of the 64 of `ALPHA`. -/
def isAlpha (c : Byte) : Bool := (alphaIndex c).isSome

/-- The character is one of `0` .. `9` (43_comparator.md R185). -/
def isDigit (c : Byte) : Bool := 0x30 ≤ c.toNat && c.toNat ≤ 0x39

/-- `ch(v) = ALPHA[v and 0x3F]` (42_engine.md R149). -/
def ch (v : Word) : Byte := alphaChar (v.extractLsb' 0 6)

/-- The digit character of `n`, for `n` below 10. -/
def digitChar (n : Nat) : Byte := BitVec.ofNat 8 (0x30 + n)

/-- The decimal digits of `n`, most significant first, with at most `fuel + 1` of them. -/
def decDigits : Nat → Nat → Text
  | 0, n => [digitChar (n % 10)]
  | fuel + 1, n => if n < 10 then [digitChar n] else decDigits fuel (n / 10) ++ [digitChar (n % 10)]

/-- `dec(n)`: the decimal spelling with no sign and no leading zero (00_scope.md R9). -/
def dec (n : Nat) : Text := decDigits n n

/-- `value(d)`: the natural number decimal digits spell, without truncation (43_comparator.md R186). -/
def decValue (d : Text) : Nat := d.foldl (fun acc c => 10 * acc + (c.toNat - 0x30)) 0

/-- The text cut at every `:`; with `n` of them, `n + 1` pieces. -/
def splitColon : Text → List Text
  | [] => [[]]
  | c :: t =>
    if c = colon then [] :: splitColon t
    else match splitColon t with
      | [] => [[c]]
      | piece :: rest => (c :: piece) :: rest

/-- What a well-formed signature text says (43_comparator.md R186). -/
structure Parsed where
  /-- The block-size field as a number. -/
  bsize : Nat
  /-- The first run. -/
  sig1 : Text
  /-- The second run. -/
  sig2 : Text
  deriving DecidableEq, Repr

/-- A non-empty run of decimal digits. -/
def isDigits (d : Text) : Bool := !d.isEmpty && d.all isDigit

/-- A non-empty run over the alphabet. -/
def isAlphaRun (r : Text) : Bool := !r.isEmpty && r.all isAlpha

/-- `parse(t)`: exactly two `:`, digits before the first, an alphabet run after each; `none` is `Malformed`
(43_comparator.md R186). -/
def parse (t : Text) : Option Parsed :=
  match splitColon t with
  | [d, r1, r2] =>
    if isDigits d && isAlphaRun r1 && isAlphaRun r2 then some ⟨decValue d, r1, r2⟩ else none
  | _ => none

end Sys2Proof.Machine
end

