-- ==== Sys2Proof/Machine/Engine.lean ====
section
/-! DEFINITION. The fuzzy hash engine: `ENG.INIT`, `ENG.STEP`, `ENG.FMT` (42_engine.md). Operations take the parameters as an
argument, so that the vectors of 95_test_vectors.md can be run at their defaults; the commands use `Config.params`. -/

namespace Sys2Proof.Machine

/-- The doubling loop of 42_engine.md R143, at most `fuel` doublings. -/
def bs0Loop : Nat → Nat → Nat → Nat
  | 0, bs, _ => bs
  | fuel + 1, bs, len => if bs * 64 < len then bs0Loop fuel (bs * 2) len else bs

/-- `bs0(len)`: the smallest `3 * 2^n` with `bs * 64 >= len`; 25 doublings are enough for every 32-bit length
(42_engine.md R143, 70_reset_and_hazards.md R279). -/
def bs0 (len : Word) : Word := u32 (bs0Loop 25 Config.minBs.toNat len.toNat)

/-- `AttemptReset` (42_engine.md R144). -/
def attemptReset (p : Params) (s : State) : State :=
  let t := digestReset p 1 (digestReset p 0 (rollReset s))
  let u := setSig 1 (memClear t.sig[1]) (setSig 0 (memClear t.sig[0]) t)
  { u with pos := 0 }

/-- The effect of `ENG.INIT len` (42_engine.md R142). -/
def engInit (p : Params) (len : Word) (s : State) : State :=
  if len = 0 then respond .invalidInput 0 [] s
  else
    let t := attemptReset p { s with bs := bs0 len, len := len }
    respond .ok t.bs [] { t with est := .running }

/-- Trigger 1: `c mod BS = BS - 1` (42_engine.md R148), written without the subtraction (log entry 9). -/
def trigger1 (c bs : Word) : Bool := c.toNat % bs.toNat + 1 == bs.toNat

/-- Trigger 2: `c mod (2*BS) = 2*BS - 1`, the product not wrapping (42_engine.md R148). -/
def trigger2 (c bs : Word) : Bool := c.toNat % (2 * bs.toNat) + 1 == 2 * bs.toNat

/-- The step report: `phase` in bits 1:0, `trig1` in bit 8, `trig2` in bit 9, zeros elsewhere (42_engine.md R150). -/
def stepReport (phase : BitVec 2) (trig1 trig2 : Bool) : Word :=
  0#22 ++ (BitVec.ofBool trig2 ++ (BitVec.ofBool trig1 ++ (0#6 ++ phase)))

/-- The half holds `SIG_CAP` characters, so that nothing can be appended to it (42_engine.md R156, log entry 8). -/
def sigFull (p : Params) (k : Fin 2) (s : State) : Bool := p.sigCap ≤ s.sig[k].length

/-- `would_overflow(byte)`, decided on the values the step would compute (42_engine.md R156). -/
def wouldOverflow (p : Params) (byte : Byte) (s : State) : Bool :=
  if s.pos + 1 = s.len then sigFull p 0 s || sigFull p 1 s
  else
    let c := sumView (advance byte s)
    (trigger1 c s.bs && sigFull p 0 s) || (trigger2 c s.bs && sigFull p 1 s)

/-- Append `ch(ACC[k])` to `SIG[k]`. -/
def emit (k : Fin 2) (s : State) : State := setSig k (memAppend s.sig[k] (ch s.acc[k])) s

/-- `EndOfAttempt` (42_engine.md R146). -/
def endOfAttempt (p : Params) (s : State) : State :=
  let t := emit 1 (emit 0 s)
  if Config.sigHalf ≤ t.sig[0].length ∨ t.bs = Config.minBs then
    respond .ok (stepReport 2 false false) [] { t with est := .finalized }
  else
    respond .ok (stepReport 1 false false) [] (attemptReset p { t with bs := t.bs / 2 })

/-- The emission on a trigger: append the updated word's character and reset the word (42_engine.md R147). -/
def emitOnTrigger (p : Params) (trig : Bool) (k : Fin 2) (s : State) : State :=
  if trig then digestReset p k (emit k s) else s

/-- `MidAttempt(byte)` (42_engine.md R147). -/
def midAttempt (p : Params) (byte : Byte) (s : State) : State :=
  let t := digestUpdate 1 byte (digestUpdate 0 byte (advance byte s))
  let trig1 := trigger1 (sumView t) t.bs
  let trig2 := trigger2 (sumView t) t.bs
  respond .ok (stepReport 0 trig1 trig2) [] (emitOnTrigger p trig2 1 (emitOnTrigger p trig1 0 t))

/-- The effect of `ENG.STEP byte` (42_engine.md R145). -/
def engStep (p : Params) (byte : Byte) (s : State) : State :=
  match s.est with
  | .idle => raiseFault .noEngine s
  | .finalized => raiseFault .notRunning s
  | .running =>
    if wouldOverflow p byte s then raiseFault .overflow s
    else
      let t := { s with pos := s.pos + 1 }
      if t.pos = t.len then endOfAttempt p t else midAttempt p byte t

/-- The text of `format()`: `dec(BS) ++ ":" ++ SIG[0] ++ ":" ++ SIG[1]` (42_engine.md R153). -/
def formatText (s : State) : Text := dec s.bs.toNat ++ [colon] ++ s.sig[0] ++ [colon] ++ s.sig[1]

/-- The effect of `ENG.FMT` (42_engine.md R153). -/
def engFmt (s : State) : State :=
  if s.est = .idle then raiseFault .noEngine s
  else respond .ok (u32 (formatText s).length) (formatText s) s

/-- `ENG.INIT len` (42_engine.md R142). -/
def execEngInit (len : Word) (s : State) : Out := .next (engInit Config.params len s)

/-- `ENG.STEP byte` (42_engine.md R145). -/
def execEngStep (byte : Byte) (s : State) : Out := .next (engStep Config.params byte s)

/-- `ENG.FMT` (42_engine.md R153). -/
def execEngFmt (s : State) : Out := .next (engFmt s)

end Sys2Proof.Machine
end

