-- ==== Sys2Proof/Machine/Comparator.lean ====
section
/-! DEFINITION. The signature comparator: `CMP.CLR`, `CMP.PUSH`, `CMP.LDF`, `CMP.RUN` (43_comparator.md). -/

namespace Sys2Proof.Machine

/-- The effect of `CMP.PUSH s, char` (43_comparator.md R182, log entry 8). -/
def cmpPush (p : Params) (x : Fin 2) (char : Byte) (s : State) : State :=
  if p.cmpCap ≤ s.cmp[x].length then raiseFault .overflow s
  else
    let t := setCmp x (memAppend s.cmp[x] char) s
    respond .ok (u32 t.cmp[x].length) [] t

/-- The effect of `CMP.LDF s` (43_comparator.md R183). -/
def cmpLdf (p : Params) (x : Fin 2) (s : State) : State :=
  if s.est = .idle then raiseFault .noEngine s
  else
    let text := formatText s
    if p.cmpCap < text.length then raiseFault .overflow s
    else respond .ok (u32 text.length) [] (setCmp x (text.foldl memAppend (memClear s.cmp[x])) s)

/-- `compare(a, b)`: the format of `a`, then of `b`, then the block sizes, then the smaller of the two distances
(43_comparator.md R184, R188). -/
def compareTexts (a b : Text) : Status × Word :=
  match parse a with
  | none => (.formatA, 0)
  | some pa =>
    match parse b with
    | none => (.formatB, 0)
    | some pb =>
      if pa.bsize = pb.bsize then (.ok, u32 (min (lev pa.sig1 pb.sig1) (lev pa.sig2 pb.sig2))) else (.bsize, 0)

/-- `CMP.CLR s` (43_comparator.md R181). -/
def execCmpClr (x : Fin 2) (s : State) : Out := .next (respond .ok 0 [] (setCmp x (memClear s.cmp[x]) s))

/-- `CMP.PUSH s, char` (43_comparator.md R182). -/
def execCmpPush (x : Fin 2) (char : Byte) (s : State) : Out := .next (cmpPush Config.params x char s)

/-- `CMP.LDF s` (43_comparator.md R183). -/
def execCmpLdf (x : Fin 2) (s : State) : Out := .next (cmpLdf Config.params x s)

/-- `CMP.RUN` (43_comparator.md R184). -/
def execCmpRun (s : State) : Out :=
  let r := compareTexts s.cmp[0] s.cmp[1]
  .next (respond r.1 r.2 [] s)

end Sys2Proof.Machine
end

