-- ==== Sys2Proof/Machine/System.lean ====
section
/-! DEFINITION. `NOP` and `RDREG` (44_system.md). -/

namespace Sys2Proof.Machine

/-- `NOP` (44_system.md R220). -/
def execNop (s : State) : Out := .next (respond .ok 0 [] s)

/-- `RDREG reg`: the view of a named register, `F_ILLEGAL` for a reserved number (44_system.md R221). -/
def execRdreg (reg : BitVec 8) (s : State) : Out :=
  match Reg.ofNumber reg with
  | none => .next (raiseFault .illegal s)
  | some r => .next (respond .ok (r.view s) [] s)

end Sys2Proof.Machine
end

