-- ==== Sys2Proof/Syntax.lean ====
section
/-! DEFINITION. The fourteen commands of the block, one constructor per row of spec/opcode_table.json
(30_encoding.md R84), with the operands of the row's format (R82). -/

namespace Sys2Proof

/-- A command with its operands. `k` and `x` are the one-bit selectors of `ACC[k]` and `CMP[x]` (the spec calls the second
one `s`; the model keeps that letter for the state). -/
inductive Instr where
  /-- `NOP`, 44_system.md R220. -/
  | nop
  /-- `RDREG reg`, 44_system.md R221. -/
  | rdreg (reg : BitVec 8)
  /-- `ROLL.RST`, 40_rolling.md R101. -/
  | rollRst
  /-- `ROLL.ADV byte`, 40_rolling.md R102. -/
  | rollAdv (byte : Byte)
  /-- `DIG.RST k`, 41_digest.md R121. -/
  | digRst (k : Fin 2)
  /-- `DIG.UPD k, byte`, 41_digest.md R122. -/
  | digUpd (k : Fin 2) (byte : Byte)
  /-- `DIG.VAL k`, 41_digest.md R123. -/
  | digVal (k : Fin 2)
  /-- `ENG.INIT len`, 42_engine.md R142. -/
  | engInit (len : Word)
  /-- `ENG.STEP byte`, 42_engine.md R145. -/
  | engStep (byte : Byte)
  /-- `ENG.FMT`, 42_engine.md R153. -/
  | engFmt
  /-- `CMP.CLR s`, 43_comparator.md R181. -/
  | cmpClr (x : Fin 2)
  /-- `CMP.PUSH s, char`, 43_comparator.md R182. -/
  | cmpPush (x : Fin 2) (char : Byte)
  /-- `CMP.LDF s`, 43_comparator.md R183. -/
  | cmpLdf (x : Fin 2)
  /-- `CMP.RUN`, 43_comparator.md R184. -/
  | cmpRun
  deriving DecidableEq, Repr

end Sys2Proof
end

