-- ==== Sys2Proof/Machine/Dispatch.lean ====
section
/-! DEFINITION. The dispatch: one direct call of its own meaning for each command (30_encoding.md R84). -/

namespace Sys2Proof.Machine

def exec (i : Instr) (s : State) : Host.Outcome State Fault Refusal :=
  match i with
  | .nop => Sys2Proof.Machine.execNop s
  | .rdreg reg => Sys2Proof.Machine.execRdreg reg s
  | .rollRst => Sys2Proof.Machine.execRollRst s
  | .rollAdv byte => Sys2Proof.Machine.execRollAdv byte s
  | .digRst k => Sys2Proof.Machine.execDigRst k s
  | .digUpd k byte => Sys2Proof.Machine.execDigUpd k byte s
  | .digVal k => Sys2Proof.Machine.execDigVal k s
  | .engInit len => Sys2Proof.Machine.execEngInit len s
  | .engStep byte => Sys2Proof.Machine.execEngStep byte s
  | .engFmt => Sys2Proof.Machine.execEngFmt s
  | .cmpClr x => Sys2Proof.Machine.execCmpClr x s
  | .cmpPush x char => Sys2Proof.Machine.execCmpPush x char s
  | .cmpLdf x => Sys2Proof.Machine.execCmpLdf x s
  | .cmpRun => Sys2Proof.Machine.execCmpRun s

end Sys2Proof.Machine
end

