-- ==== Sys2Proof/WellFormed.lean ====
section
/-! DEFINITION. Which commands name only things that exist. Every operand field has exactly the width of its bits, so the one
check left is the register number of `RDREG` (10_state.md R39, 44_system.md R221). An ill-formed `RDREG` still has a word and
a meaning: it faults `F_ILLEGAL` (log entry 17). -/

namespace Sys2Proof

/-- The register numbers 44_system.md R221 lists: 0x00..0x04, 0x08..0x0E, 0x10, 0x11, 0x20..0x27. -/
def regNumberListed (reg : BitVec 8) : Bool :=
  let n := reg.toNat
  n ≤ 0x04 || (0x08 ≤ n && n ≤ 0x0E) || n = 0x10 || n = 0x11 || (0x20 ≤ n && n ≤ 0x27)

/-- The command names only registers that exist. -/
def Instr.wellFormed : Instr → Bool
  | .rdreg reg => regNumberListed reg
  | .nop | .rollRst | .rollAdv _ | .digRst _ | .digUpd _ _ | .digVal _ | .engInit _ | .engStep _ | .engFmt
  | .cmpClr _ | .cmpPush _ _ | .cmpLdf _ | .cmpRun => true

end Sys2Proof
end

