-- ==== Sys2Proof/Decode.lean ====
section
/-! DEFINITION. Command words and commands: the decoder and the encoder (30_encoding.md R80, R82, R84, R86, R93). A command
crosses the port as one whole 40-bit word, so there is no byte order (20_memory.md R66). -/

namespace Sys2Proof

/-- Why a word is no command (30_encoding.md R86); both are the fault `F_ILLEGAL`. -/
inductive DecodeError where
  /-- `op` is not one of the fourteen opcodes. -/
  | reservedOpcode (op : BitVec 8)
  /-- A reserved bit of `arg` is 1 for this opcode's format. -/
  | reservedArgument (op : BitVec 8)
  deriving DecidableEq, Repr

/-- `op = cmd[39:32]` (30_encoding.md R80). -/
def opField (w : CmdWord) : BitVec 8 := w.extractLsb' 32 8

/-- `arg = cmd[31:0]` (30_encoding.md R80). -/
def argField (w : CmdWord) : Word := w.extractLsb' 0 32

/-- `byte`, `char` or `reg`: `arg[7:0]` (30_encoding.md R82). -/
def byteField (arg : Word) : Byte := arg.extractLsb' 0 8

/-- A one-bit selector as an index. -/
def selector (bit : Bool) : Fin 2 := if bit then 1 else 0

/-- Format `A0`: all of `arg` reserved (30_encoding.md R82). -/
def decodeA0 (op : BitVec 8) (arg : Word) (i : Instr) : Except DecodeError Instr :=
  if arg = 0#32 then .ok i else .error (.reservedArgument op)

/-- Formats `AR` and `AB`: `arg[7:0]` the operand, `arg[31:8]` reserved (30_encoding.md R82). -/
def decodeAB (op : BitVec 8) (arg : Word) (f : Byte → Instr) : Except DecodeError Instr :=
  if arg.extractLsb' 8 24 = 0#24 then .ok (f (byteField arg)) else .error (.reservedArgument op)

/-- Format `AK`: `arg[0]` the selector, `arg[31:1]` reserved (30_encoding.md R82). -/
def decodeAK (op : BitVec 8) (arg : Word) (f : Fin 2 → Instr) : Except DecodeError Instr :=
  if arg.extractLsb' 1 31 = 0#31 then .ok (f (selector (arg.getLsbD 0))) else .error (.reservedArgument op)

/-- Format `AKB`: `arg[7:0]` the byte, `arg[8]` the selector, `arg[31:9]` reserved (30_encoding.md R82). -/
def decodeAKB (op : BitVec 8) (arg : Word) (f : Fin 2 → Byte → Instr) : Except DecodeError Instr :=
  if arg.extractLsb' 9 23 = 0#23 then .ok (f (selector (arg.getLsbD 8)) (byteField arg))
  else .error (.reservedArgument op)

/-- The decoder of 30_encoding.md R84: first the opcode, then the reserved bits of its format. -/
def decode (w : CmdWord) : Except DecodeError Instr :=
  let op := opField w
  let arg := argField w
  if op = 0x00#8 then decodeA0 op arg .nop
  else if op = 0x01#8 then decodeAB op arg .rdreg
  else if op = 0x10#8 then decodeA0 op arg .rollRst
  else if op = 0x11#8 then decodeAB op arg .rollAdv
  else if op = 0x20#8 then decodeAK op arg .digRst
  else if op = 0x21#8 then decodeAKB op arg .digUpd
  else if op = 0x22#8 then decodeAK op arg .digVal
  else if op = 0x30#8 then .ok (.engInit arg)
  else if op = 0x31#8 then decodeAB op arg .engStep
  else if op = 0x32#8 then decodeA0 op arg .engFmt
  else if op = 0x40#8 then decodeAK op arg .cmpClr
  else if op = 0x41#8 then decodeAKB op arg .cmpPush
  else if op = 0x42#8 then decodeAK op arg .cmpLdf
  else if op = 0x43#8 then decodeA0 op arg .cmpRun
  else .error (.reservedOpcode op)

/-- The command a row of the opcode table's bits stand for: bit 0 of `bits` is bit 0 of the command word, and every bit of
the word at `nbits` and above is 0 (log entry 16). -/
def decodeTableWord (nbits bits : Nat) : Option Instr :=
  match decode (BitVec.ofNat 40 (bits % 2 ^ nbits)) with
  | .ok i => some i
  | .error _ => none

/-- A selector as its bit. -/
def selectorBit (k : Fin 2) : BitVec 1 := BitVec.ofNat 1 k.val

/-- The opcode of a command (30_encoding.md R84). -/
def Instr.opcode : Instr → BitVec 8
  | .nop => 0x00#8
  | .rdreg _ => 0x01#8
  | .rollRst => 0x10#8
  | .rollAdv _ => 0x11#8
  | .digRst _ => 0x20#8
  | .digUpd _ _ => 0x21#8
  | .digVal _ => 0x22#8
  | .engInit _ => 0x30#8
  | .engStep _ => 0x31#8
  | .engFmt => 0x32#8
  | .cmpClr _ => 0x40#8
  | .cmpPush _ _ => 0x41#8
  | .cmpLdf _ => 0x42#8
  | .cmpRun => 0x43#8

/-- The argument of a command, laid out by its format with every reserved bit 0 (30_encoding.md R82). -/
def Instr.argument : Instr → Word
  | .nop | .rollRst | .engFmt | .cmpRun => 0#32
  | .rdreg b | .rollAdv b | .engStep b => 0#24 ++ b
  | .digRst k | .digVal k | .cmpClr k | .cmpLdf k => 0#31 ++ selectorBit k
  | .digUpd k b | .cmpPush k b => 0#23 ++ (selectorBit k ++ b)
  | .engInit len => len

/-- The command word of a command (30_encoding.md R80). -/
def encode (i : Instr) : CmdWord := i.opcode ++ i.argument

/-- The `mask` of a command's row in the opcode table: 1 in every `op` bit and every reserved `arg` bit
(30_encoding.md R93). -/
def Instr.tableMask : Instr → CmdWord
  | .nop | .rollRst | .engFmt | .cmpRun => 0xFFFFFFFFFF
  | .rdreg _ | .rollAdv _ | .engStep _ => 0xFFFFFFFF00
  | .digRst _ | .digVal _ | .cmpClr _ | .cmpLdf _ => 0xFFFFFFFFFE
  | .digUpd _ _ | .cmpPush _ _ => 0xFFFFFFFE00
  | .engInit _ => 0xFF00000000

/-- The `match` value of a command's row in the opcode table (30_encoding.md R93). -/
def Instr.tableMatch : Instr → CmdWord
  | .nop => 0x0000000000
  | .rdreg _ => 0x0100000000
  | .rollRst => 0x1000000000
  | .rollAdv _ => 0x1100000000
  | .digRst _ => 0x2000000000
  | .digUpd _ _ => 0x2100000000
  | .digVal _ => 0x2200000000
  | .engInit _ => 0x3000000000
  | .engStep _ => 0x3100000000
  | .engFmt => 0x3200000000
  | .cmpClr _ => 0x4000000000
  | .cmpPush _ _ => 0x4100000000
  | .cmpLdf _ => 0x4200000000
  | .cmpRun => 0x4300000000

/-- The rows of 30_encoding.md R93 as pairs of `match` and `mask`, in the table's order. -/
def opcodeRows : List (CmdWord × CmdWord) :=
  [(0x0000000000, 0xFFFFFFFFFF), (0x0100000000, 0xFFFFFFFF00), (0x1000000000, 0xFFFFFFFFFF),
   (0x1100000000, 0xFFFFFFFF00), (0x2000000000, 0xFFFFFFFFFE), (0x2100000000, 0xFFFFFFFE00),
   (0x2200000000, 0xFFFFFFFFFE), (0x3000000000, 0xFF00000000), (0x3100000000, 0xFFFFFFFF00),
   (0x3200000000, 0xFFFFFFFFFF), (0x4000000000, 0xFFFFFFFFFE), (0x4100000000, 0xFFFFFFFE00),
   (0x4200000000, 0xFFFFFFFFFE), (0x4300000000, 0xFFFFFFFFFF)]

end Sys2Proof
end

