-- ==== Sys2Proof/Machine/Fetch.lean ====
section
/-! DEFINITION. What a step does before a command's own meaning: it takes the host's next action at the pins
(30_encoding.md R92) and decodes the command word. -/

namespace Sys2Proof.Machine

/-- What the host's next action comes to. -/
inductive Fetched where
  /-- A command to perform, in the state in which its word has been taken from the port. -/
  | run (i : Instr) (s : State)
  /-- Nothing is left to perform: the state after this step. -/
  | settled (s : State)
  deriving DecidableEq, Repr

/-- The text a command word would send on `txt`: only `ENG.FMT` with an engine sends any (30_encoding.md R89). -/
def textOf (w : CmdWord) (s : State) : Text :=
  match decode w with
  | .ok .engFmt => if s.est = .idle then [] else formatText s
  | _ => []

/-- The block takes a command word: a legal one is performed, an illegal one faults `F_ILLEGAL` in every engine state and is
tested for nothing else (30_encoding.md R86, 60_exceptions.md R237). -/
def takeWord (w : CmdWord) (s : State) : Fetched :=
  match decode w with
  | .ok i => .run i s
  | .error _ => .settled (raiseFault .illegal s)

/-- A step while `rst` is asserted: no command is accepted, and the block is at its reset values until the release and after
it (70_reset_and_hazards.md R260, log entry 5). -/
def fetchHeld (p : Params) (s : State) : State :=
  match s.inputs with
  | [] => assertReset p [] s
  | .cmd _ :: rest => assertReset p [] { s with inputs := rest }
  | .rst :: rest => assertReset p [] { s with inputs := rest }
  | .rstDuring _ _ :: rest => assertReset p [] { s with inputs := rest }
  | .release :: rest => releaseReset p { s with inputs := rest }

/-- A step while `rst` is not asserted takes the host's next action. With none the block waits: nothing changes and nothing
is sent (20_memory.md R76, 60_exceptions.md R242, log entry 6). -/
def fetchReady (p : Params) (s : State) : Fetched :=
  match s.inputs with
  | [] => .settled { s with sent := [] }
  | .cmd w :: rest => takeWord w { s with inputs := rest }
  | .rst :: rest => .settled (assertReset p [] { s with inputs := rest })
  | .rstDuring w n :: rest => .settled (assertReset p ((textOf w s).take n) { s with inputs := rest })
  | .release :: rest => .settled { s with inputs := rest, sent := [] }

/-- What a step does before a command's own meaning. -/
def fetch (p : Params) (s : State) : Fetched := if s.rst then .settled (fetchHeld p s) else fetchReady p s

/-- Release `rst` and put a command word on the port as the host's next action. -/
def placeWord (w : CmdWord) (s : State) : State := { s with rst := false, inputs := .cmd w :: s.inputs }

end Sys2Proof.Machine
end

