-- ==== Sys2Proof/Machine/Step.lean ====
section
/-! DEFINITION. One step of the block: the host's next action, and the command it brings (00_scope.md R5). -/

namespace Sys2Proof.Machine

/-- One step: a command taken from the port is performed whole (20_memory.md R65). -/
def step (s : State) : Host.Outcome State Fault Refusal :=
  match fetch Config.params s with
  | .run i t => exec i t
  | .settled t => .next t

/-- The state with `rst` released and the command word of `bits` (all bits at `nbits` and above 0) as the host's next action
(log entries 1 and 16). -/
def State.withFetchWord (s : State) (nbits bits : Nat) : State :=
  placeWord (BitVec.ofNat 40 (bits % 2 ^ nbits)) s

end Sys2Proof.Machine
end

