-- ==== Sys2Proof/Safety.lean ====
section
/-! DEFINITION. The terms claims are stated in: sequences of commands, the invariants the spec gives, the grammar and the edits
of the comparator's definition, and the host's view of a response. No command uses anything of this file. -/

namespace Sys2Proof.Safety

open Sys2Proof.Machine

/-- Perform commands one after another (20_memory.md R70). -/
def perform : List Instr → State → Out
  | [], s => .next s
  | i :: rest, s =>
    match exec i s with
    | .next t => perform rest t
    | .fault r => .fault r
    | .refused r => .refused r

/-- `w0` is the one word of the command `i`: every other word, one with a reserved bit set among them, is another command or
illegal (30_encoding.md R84, R86). -/
def WordOf (i : Instr) (w0 : CmdWord) : Prop := ∀ w, decode w = .ok i ↔ w = w0

/-- A response word with a status code and a data word (30_encoding.md R81). -/
def response (status : BitVec 4) (data : Word) : Transfer := .resp (status ++ data)

/-- A word with this opcode and a reserved bit of its argument at 1 is refused as `F_ILLEGAL`, nothing else written
(30_encoding.md R86, 60_exceptions.md R236). -/
def ReservedBitsFault (op : BitVec 8) (reserved : Word) : Prop :=
  ∀ (w : CmdWord) (s : State), opField w = op → argField w &&& reserved ≠ 0 →
    takeWord w s = .settled { s with
      fault := true, fcause := if s.fault = true then s.fcause else 8, sent := [response 8 0] }

/-- The state after a command that only answers: nothing but what was sent differs. -/
def answered (status : BitVec 4) (data : Word) (s : State) : State := { s with sent := [response status data] }

/-- The state after a fault (60_exceptions.md R236): the record if it was empty, and the response. -/
def faulted (code : BitVec 4) (s : State) : State :=
  { s with fault := true, fcause := if s.fault = true then s.fcause else code, sent := [response code 0] }

/-- `b(j)`, the byte of the `j`-th most recent advance, for `j` from 1 to 7: `WIN[(IDX - j) mod 7]` (10_state.md R26). -/
def recentByte (s : State) (j : Nat) : Byte := s.win[(s.idx.val + 7 - j) % 7]'(Nat.mod_lt _ (by decide))

/-- The unweighted sum of seven bytes, `b 1` the newest (10_state.md R26). -/
def plainSum (b : Nat → Byte) : Nat :=
  (b 1).toNat + (b 2).toNat + (b 3).toNat + (b 4).toNat + (b 5).toNat + (b 6).toNat + (b 7).toNat

/-- The weighted sum of seven bytes (10_state.md R26). -/
def weightedSum (b : Nat → Byte) : Nat :=
  7 * (b 1).toNat + 6 * (b 2).toNat + 5 * (b 3).toNat + 4 * (b 4).toNat + 3 * (b 5).toNat + 2 * (b 6).toNat + (b 7).toNat

/-- The shift-XOR term of seven bytes (10_state.md R26). -/
def shiftXor (b : Nat → Byte) : Word :=
  zext (b 1) ^^^ (zext (b 2) <<< 5) ^^^ (zext (b 3) <<< 10) ^^^ (zext (b 4) <<< 15) ^^^ (zext (b 5) <<< 20)
    ^^^ (zext (b 6) <<< 25) ^^^ (zext (b 7) <<< 30)

/-- The invariants of the rolling registers (10_state.md R26); the sums are exact, so they never wrap. -/
def RollInv (s : State) : Prop :=
  s.h1.toNat = plainSum (recentByte s) ∧ s.h2.toNat = weightedSum (recentByte s) ∧ s.h3 = shiftXor (recentByte s)

/-- The invariants of the engine registers (10_state.md R30 to R33, R40; 42_engine.md R155). -/
def EngInv (s : State) : Prop :=
  match s.est with
  | .idle => s.bs = 0 ∧ s.len = 0 ∧ s.pos = 0 ∧ s.sig[0] = [] ∧ s.sig[1] = []
  | .running =>
    (∃ n, n ≤ 25 ∧ s.bs.toNat = 3 * 2 ^ n) ∧ s.pos.toNat < s.len.toNat ∧ s.sig[0].length ≤ s.pos.toNat
      ∧ s.sig[1].length ≤ s.sig[0].length
  | .finalized =>
    (∃ n, n ≤ 25 ∧ s.bs.toNat = 3 * 2 ^ n) ∧ 0 < s.len.toNat ∧ s.pos = s.len ∧ s.sig[0].length ≤ s.pos.toNat
      ∧ s.sig[1].length ≤ s.sig[0].length ∧ 0 < s.sig[1].length

/-- The fault record: no cause without a fault, and only the four codes (10_state.md R35, 60_exceptions.md R235). -/
def FaultInv (s : State) : Prop :=
  if s.fault = true then s.fcause = 8 ∨ s.fcause = 9 ∨ s.fcause = 10 ∨ s.fcause = 11 else s.fcause = 0

/-- The character spaces: within their capacities, and only alphabet characters in the halves (20_memory.md R61, R75). -/
def SpaceInv (s : State) : Prop :=
  s.sig[0].length ≤ Config.params.sigCap ∧ s.sig[1].length ≤ Config.params.sigCap
    ∧ s.cmp[0].length ≤ Config.params.cmpCap ∧ s.cmp[1].length ≤ Config.params.cmpCap
    ∧ (∀ c ∈ s.sig[0], ∃ i, c = alphaChar i) ∧ (∀ c ∈ s.sig[1], ∃ i, c = alphaChar i)

/-- No command since reset was refused (60_exceptions.md R244): what a host reads as a good session. -/
def CleanSession (s : State) : Prop := s.fault = false

/-- One or more decimal digits (43_comparator.md R185). -/
def Digits (d : Text) : Prop := d ≠ [] ∧ ∀ c ∈ d, 0x30 ≤ c.toNat ∧ c.toNat ≤ 0x39

/-- One or more characters of `ALPHA` (43_comparator.md R185). -/
def AlphaRun (r : Text) : Prop := r ≠ [] ∧ ∀ c ∈ r, ∃ i, c = alphaChar i

/-- `t` is the signature with digits `d` and runs `r1` and `r2`, whole and with nothing around it (43_comparator.md R185). -/
def Signature (t d r1 r2 : Text) : Prop :=
  Digits d ∧ AlphaRun r1 ∧ AlphaRun r2 ∧ t = d ++ [0x3A] ++ r1 ++ [0x3A] ++ r2

/-- `t` matches the grammar (43_comparator.md R185). -/
def Grammatical (t : Text) : Prop := ∃ d r1 r2, Signature t d r1 r2

/-- One insertion, deletion or substitution of a single character (43_comparator.md R189). -/
inductive Edit : Text → Text → Prop where
  /-- Insert `c`. -/
  | insert (u v : Text) (c : Byte) : Edit (u ++ v) (u ++ c :: v)
  /-- Delete `c`. -/
  | delete (u v : Text) (c : Byte) : Edit (u ++ c :: v) (u ++ v)
  /-- Substitute `d` for `c`. -/
  | substitute (u v : Text) (c d : Byte) : Edit (u ++ c :: v) (u ++ d :: v)

/-- `n` edits, one after another, turn one text into another. -/
inductive Edits : Nat → Text → Text → Prop where
  /-- No edit. -/
  | none (x : Text) : Edits 0 x x
  /-- One edit and then `n`. -/
  | cons {n : Nat} {x y z : Text} (first : Edit x y) (rest : Edits n y z) : Edits (n + 1) x z

end Sys2Proof.Safety
end

