-- ==== Sys2Proof/Certificates/Slice0/Obligations.lean ====
section
/-! DEFINITION. The statements for the provers, in the order of OBLIGATIONS.json. `answered` and `faulted`
(Sys2Proof/Safety.lean) give a whole next state, so a statement of a command's result is also its frame and its
completion: every field it does not name is unchanged. -/

open Sys2Proof Sys2Proof.Machine Sys2Proof.Safety

/-! ### Words and commands -/

/-- Decoding the word of a command gives the command back, every operand at every value (30_encoding.md sections 2 and 3). -/
def Obligations.DecodeInvertsEncode : Prop := ∀ i : Instr, decode (encode i) = .ok i

/-- A command has one word: a word that decodes to it is its encoding (30_encoding.md sections 2 and 3). -/
def Obligations.EncodeInvertsDecode : Prop := ∀ (w : CmdWord) (i : Instr), decode w = .ok i → encode i = w

/-- A word is a row's command exactly when it agrees with the row's match under the row's mask (30_encoding.md section 3). -/
def Obligations.DecodeIsMatchAndMask : Prop :=
  (∀ (w : CmdWord) (i : Instr), decode w = .ok i →
    w &&& i.tableMask = i.tableMatch ∧ (i.tableMatch, i.tableMask) ∈ opcodeRows) ∧
  ∀ (w : CmdWord), ∀ row ∈ opcodeRows, w &&& row.2 = row.1 →
    ∃ i, decode w = .ok i ∧ i.tableMatch = row.1 ∧ i.tableMask = row.2

/-- Words of 95_test_vectors.md sections 2 and 3 decode as they are listed there. -/
def Obligations.ListedWordsDecodeAsListed : Prop :=
  decode 0x0000000000 = .ok .nop ∧ decode 0x0100000004 = .ok (.rdreg 0x04) ∧ decode 0x11000000FF = .ok (.rollAdv 255)
    ∧ decode 0x2200000001 = .ok (.digVal 1) ∧ decode 0x21000001FF = .ok (.digUpd 1 0xFF)
    ∧ decode 0x30FFFFFFFF = .ok (.engInit 4294967295) ∧ decode 0x3100000068 = .ok (.engStep 0x68)
    ∧ decode 0x4100000133 = .ok (.cmpPush 1 0x33) ∧ decode 0x4200000001 = .ok (.cmpLdf 1)
    ∧ decode 0x1100000100 = .error (.reservedArgument 0x11) ∧ decode 0x2000000002 = .error (.reservedArgument 0x20)
    ∧ decode 0x0200000000 = .error (.reservedOpcode 0x02)

/-- A step with a legal word at the port, and `rst` not asserted, is the command's meaning, the word taken (log entry 1 for
the list of words). -/
def Obligations.StepPerformsDecodedCommand : Prop :=
  ∀ (s : State) (w : CmdWord) (rest : List HostInput) (i : Instr),
    s.rst = false → s.inputs = .cmd w :: rest → decode w = .ok i → step s = exec i { s with inputs := rest }

/-- A word placed for the next step, with `rst` released, is performed by it, from any state (log entries 1 and 16). -/
def Obligations.PlacedWordIsPerformed : Prop :=
  ∀ (s : State) (nbits bits : Nat) (i : Instr),
    decodeTableWord nbits bits = some i → step (s.withFetchWord nbits bits) = exec i { s with rst := false }

/-- A word that matches no row, and is accepted, faults `F_ILLEGAL` in every state and changes only the fault record
(30_encoding.md section 5; log entry 1). -/
def Obligations.IllegalWordFaults : Prop :=
  ∀ (s : State) (w : CmdWord) (rest : List HostInput),
    s.rst = false → s.inputs = .cmd w :: rest → (∀ row ∈ opcodeRows, w &&& row.2 ≠ row.1) →
    step s = .next (faulted 8 { s with inputs := rest })

/-! ### Reset and waiting -/

/-- Every piece of state the spec names has its reset value (10_state.md R45). -/
def Obligations.ResetValuesAreTheListed : Prop :=
  State.reset.h1 = 0 ∧ State.reset.h2 = 0 ∧ State.reset.h3 = 0 ∧ State.reset.idx = 0
    ∧ State.reset.win = #v[0, 0, 0, 0, 0, 0, 0]
    ∧ State.reset.acc = #v[Config.params.digestSeed, Config.params.digestSeed]
    ∧ State.reset.bs = 0 ∧ State.reset.len = 0 ∧ State.reset.pos = 0 ∧ State.reset.est = .idle
    ∧ retryFlag State.reset = false ∧ State.reset.fault = false ∧ State.reset.fcause = 0
    ∧ State.reset.sig = #v[[], []] ∧ State.reset.cmp = #v[[], []]

/-- `rst` puts every piece of state at its reset value from any state and stays asserted; a command in progress is abandoned
with no response, whatever part of its text is out (70_reset_and_hazards.md section 1; log entries 1 and 5). -/
def Obligations.RstRestoresResetState : Prop :=
  (∀ (s : State) (rest : List HostInput), s.inputs = .rst :: rest →
    step s = .next { State.reset with rst := true, inputs := rest }) ∧
  ∀ (s : State) (w : CmdWord) (n : Nat) (rest : List HostInput), s.inputs = .rstDuring w n :: rest →
    ∃ text : Text, text.length ≤ n ∧
      step s = .next { State.reset with rst := true, inputs := rest, sent := text.map .txt }

/-- With no action of the host, and `rst` not asserted, the block changes nothing and sends nothing (20_memory.md section 3,
marked derived there; log entry 6). -/
def Obligations.WaitingChangesNothing : Prop :=
  ∀ s : State, s.rst = false → s.inputs = [] → step s = .next { s with sent := [] }

/-! ### System commands -/

/-- `NOP` (44_system.md R220). -/
def Obligations.NopOnlyAnswers : Prop :=
  WordOf .nop 0x0000000000 ∧ ReservedBitsFault 0x00 0xFFFFFFFF ∧ ∀ s : State, exec .nop s = .next (answered 0 0 s)

/-- `RDREG` of every register number of the map answers its view and changes nothing (10_state.md section 4). -/
def Obligations.RdregAnswersEveryView : Prop :=
  ∀ s : State,
    exec (.rdreg 0x00) s = .next (answered 0 s.h1 s) ∧ exec (.rdreg 0x01) s = .next (answered 0 s.h2 s)
    ∧ exec (.rdreg 0x02) s = .next (answered 0 s.h3 s)
    ∧ exec (.rdreg 0x03) s = .next (answered 0 (BitVec.ofNat 32 s.idx.val) s)
    ∧ exec (.rdreg 0x04) s = .next (answered 0 (s.h1 + s.h2 + s.h3) s)
    ∧ (∀ i : Fin 7, exec (.rdreg (8 + BitVec.ofNat 8 i.val)) s = .next (answered 0 (s.win[i].setWidth 32) s))
    ∧ exec (.rdreg 0x10) s = .next (answered 0 s.acc[0] s) ∧ exec (.rdreg 0x11) s = .next (answered 0 s.acc[1] s)
    ∧ exec (.rdreg 0x20) s = .next (answered 0 s.bs s) ∧ exec (.rdreg 0x21) s = .next (answered 0 s.len s)
    ∧ exec (.rdreg 0x22) s = .next (answered 0 s.pos s) ∧ exec (.rdreg 0x23) s = .next (answered 0 (statusWord s) s)
    ∧ exec (.rdreg 0x24) s = .next (answered 0 (BitVec.ofNat 32 s.sig[0].length) s)
    ∧ exec (.rdreg 0x25) s = .next (answered 0 (BitVec.ofNat 32 s.sig[1].length) s)
    ∧ exec (.rdreg 0x26) s = .next (answered 0 (BitVec.ofNat 32 s.cmp[0].length) s)
    ∧ exec (.rdreg 0x27) s = .next (answered 0 (BitVec.ofNat 32 s.cmp[1].length) s)

/-- `RDREG` of a reserved number faults `F_ILLEGAL` (44_system.md, `RDREG`). -/
def Obligations.RdregReservedNumberFaults : Prop :=
  ∀ (s : State) (n : BitVec 8),
    (5 ≤ n.toNat ∧ n.toNat ≤ 7) ∨ n.toNat = 15 ∨ (18 ≤ n.toNat ∧ n.toNat ≤ 31) ∨ 40 ≤ n.toNat →
    exec (.rdreg n) s = .next (faulted 8 s)

/-- The `STATUS` view is exactly its four fields, with zeros above, and register number 0x23 reads it (10_state.md R34). -/
def Obligations.StatusIsItsFields : Prop :=
  ∀ s : State,
    (statusWord s).toNat
      = (match s.est with | .idle => 0 | .running => 1 | .finalized => 2) + 4 * (if s.est = .running then 1 else 0)
        + 8 * s.fault.toNat + 16 * s.fcause.toNat ∧
      exec (.rdreg 0x23) s = .next (answered 0 (statusWord s) s)

/-- The level outputs mirror `STATUS` (30_encoding.md section 1). -/
def Obligations.LevelOutputsMirrorStatus : Prop :=
  ∀ s : State, runningPin s = (statusWord s).getLsbD 2 ∧ donePin s = decide ((statusWord s).extractLsb' 0 2 = 2)
    ∧ faultPin s = (statusWord s).getLsbD 3

/-! ### Rolling checksum -/

/-- `ROLL.RST` (40_rolling.md R101). -/
def Obligations.RollRstZeroesTheUnit : Prop :=
  WordOf .rollRst 0x1000000000 ∧ ReservedBitsFault 0x10 0xFFFFFFFF ∧ ∀ s : State,
    exec .rollRst s
      = .next (answered 0 0 { s with h1 := 0, h2 := 0, h3 := 0, idx := 0, win := #v[0, 0, 0, 0, 0, 0, 0] })

/-- `ROLL.ADV byte` (40_rolling.md R102): the recurrence, the checksum answered, and everything else unchanged. -/
def Obligations.RollAdvIsTheRecurrence : Prop :=
  ReservedBitsFault 0x11 0xFFFFFF00 ∧ ∀ b : Byte, WordOf (.rollAdv b) (0x11#8 ++ (0#24 ++ b)) ∧ ∀ s : State,
    let h2 : Word := s.h2 - s.h1 + 7 * b.setWidth 32
    let h1 : Word := s.h1 + b.setWidth 32 - s.win[s.idx].setWidth 32
    let h3 : Word := (s.h3 <<< 5) ^^^ b.setWidth 32
    exec (.rollAdv b) s
      = .next (answered 0 (h1 + h2 + h3)
          { s with h1 := h1, h2 := h2, h3 := h3, win := s.win.set s.idx b, idx := Fin.ofNat 7 (s.idx.val + 1) })

/-- Every step keeps the identities of the rolling registers (10_state.md section 2, marked derived there). -/
def Obligations.StepKeepsRollingIdentities : Prop := ∀ s t : State, RollInv s → step s = .next t → RollInv t

/-- After a zeroing and any bytes, the registers and the checksum are the closed form over the last seven bytes, newest
first, absent ones 0 (40_rolling.md, 'Closed form of the checksum', marked derived there). -/
def Obligations.ChecksumIsClosedForm : Prop :=
  ∀ (s : State) (bytes : List Byte),
    let b : Nat → Byte := fun j => bytes.reverse.getD (j - 1) 0
    ∃ t, perform (.rollRst :: bytes.map .rollAdv) s = .next t ∧ t.h1.toNat = plainSum b ∧ t.h2.toNat = weightedSum b
      ∧ t.h3 = shiftXor b ∧ sumView t = BitVec.ofNat 32 (plainSum b + weightedSum b + (shiftXor b).toNat)

/-- Seven advances forget everything before them: two states that meet the rolling identities, whatever their index and
window, agree on the three sums afterwards (40_rolling.md, `ROLL.ADV` corner case (d)). -/
def Obligations.SevenAdvancesForgetThePast : Prop :=
  ∀ (s t : State) (bytes : List Byte), RollInv s → RollInv t → 7 ≤ bytes.length →
    ∃ s' t', perform (bytes.map .rollAdv) s = .next s' ∧ perform (bytes.map .rollAdv) t = .next t'
      ∧ s'.h1 = t'.h1 ∧ s'.h2 = t'.h2 ∧ s'.h3 = t'.h3

/-! ### Digest accumulators -/

/-- `DIG.RST k` (41_digest.md R121). -/
def Obligations.DigRstRestoresTheSeed : Prop :=
  ReservedBitsFault 0x20 0xFFFFFFFE ∧ ∀ k : Fin 2, WordOf (.digRst k) (0x20#8 ++ BitVec.ofNat 32 k.val) ∧ ∀ s : State,
    exec (.digRst k) s = .next (answered 0 0 { s with acc := s.acc.set k Config.params.digestSeed })

/-- `DIG.UPD k, byte` (41_digest.md R122): over the integers, reduced modulo 2^32 before the XOR. -/
def Obligations.DigUpdMultipliesThenXors : Prop :=
  ReservedBitsFault 0x21 0xFFFFFE00 ∧ ∀ (k : Fin 2) (b : Byte), WordOf (.digUpd k b) (0x21#8 ++ (0#23 ++ (BitVec.ofNat 1 k.val ++ b))) ∧ ∀ s : State,
    exec (.digUpd k b) s
      = .next (answered 0 0
          { s with acc := s.acc.set k (BitVec.ofNat 32 (s.acc[k].toNat * 16777619) ^^^ b.setWidth 32) })

/-- `DIG.VAL k`, and the register number that shows the same word (41_digest.md R123). -/
def Obligations.DigValAnswersTheWord : Prop :=
  ReservedBitsFault 0x22 0xFFFFFFFE ∧ ∀ k : Fin 2, WordOf (.digVal k) (0x22#8 ++ BitVec.ofNat 32 k.val) ∧ ∀ s : State,
    exec (.digVal k) s = .next (answered 0 s.acc[k] s) ∧
      exec (.rdreg (0x10 + BitVec.ofNat 8 k.val)) s = .next (answered 0 s.acc[k] s)

/-- For a fixed byte the update is a bijection on words (41_digest.md, `DIG.UPD` corner case (e)). -/
def Obligations.DigestUpdateIsBijective : Prop := ∀ b : Byte, Function.Bijective (fun v : Word => mulXor v b)

/-- The character of an updated word depends only on the low six bits of the old word and of the byte (41_digest.md,
'The output character of a digest value', marked derived there). -/
def Obligations.UpdatedCharacterFromLowBits : Prop :=
  ∀ (v : Word) (b : Byte),
    ch (mulXor v b) = alphaChar (BitVec.ofNat 6 (v.toNat % 64 * 19) ^^^ b.extractLsb' 0 6)

/-! ### Fuzzy hash engine -/

/-- `ENG.INIT len` (42_engine.md R142, R143, R144): length 0 is refused with nothing changed; any other picks the least
`3 * 2^n` that reaches the length and starts an attempt. -/
def Obligations.EngInitStartsAnAttempt : Prop :=
  ∀ len : Word, WordOf (.engInit len) (0x30#8 ++ len) ∧ ∀ s : State,
    (len = 0 → exec (.engInit len) s = .next (answered 1 0 s)) ∧
    (len ≠ 0 → ∃ n, n ≤ 25 ∧ len.toNat ≤ 3 * 2 ^ n * 64 ∧ (∀ m, m < n → 3 * 2 ^ m * 64 < len.toNat) ∧
      exec (.engInit len) s
        = .next (answered 0 (BitVec.ofNat 32 (3 * 2 ^ n))
            { s with
              h1 := 0, h2 := 0, h3 := 0, idx := 0, win := #v[0, 0, 0, 0, 0, 0, 0]
              acc := #v[Config.params.digestSeed, Config.params.digestSeed]
              bs := BitVec.ofNat 32 (3 * 2 ^ n), len := len, pos := 0, est := .running, sig := #v[[], []] }))

/-- `ENG.STEP` in the middle of an attempt (42_engine.md, `MidAttempt`): the advance, both updates, and the two independent
triggers, when no half that must grow is full; a running engine's `BS` is never 0 (`StepKeepsEngineInvariants`). -/
def Obligations.EngStepMidAttempt : Prop :=
  ∀ (s : State) (b : Byte),
    let h2 : Word := s.h2 - s.h1 + 7 * b.setWidth 32
    let h1 : Word := s.h1 + b.setWidth 32 - s.win[s.idx].setWidth 32
    let h3 : Word := (s.h3 <<< 5) ^^^ b.setWidth 32
    let c : Word := h1 + h2 + h3
    let a0 : Word := (s.acc[0] * 16777619) ^^^ b.setWidth 32
    let a1 : Word := (s.acc[1] * 16777619) ^^^ b.setWidth 32
    let trig1 : Bool := decide ((c.toNat : Int) % s.bs.toNat = (s.bs.toNat : Int) - 1)
    let trig2 : Bool := decide ((c.toNat : Int) % (2 * s.bs.toNat) = 2 * (s.bs.toNat : Int) - 1)
    s.est = .running → s.bs ≠ 0 → s.pos + 1 ≠ s.len →
    (trig1 = true → s.sig[0].length < Config.params.sigCap) → (trig2 = true → s.sig[1].length < Config.params.sigCap) →
    exec (.engStep b) s
      = .next (answered 0 (BitVec.ofNat 32 (256 * trig1.toNat + 512 * trig2.toNat))
          { s with
            h1 := h1, h2 := h2, h3 := h3, win := s.win.set s.idx b, idx := Fin.ofNat 7 (s.idx.val + 1)
            pos := s.pos + 1
            acc := #v[if trig1 then Config.params.digestSeed else a0, if trig2 then Config.params.digestSeed else a1]
            sig := #v[if trig1 then s.sig[0] ++ [alphaChar (a0.extractLsb' 0 6)] else s.sig[0],
                      if trig2 then s.sig[1] ++ [alphaChar (a1.extractLsb' 0 6)] else s.sig[1]] })

/-- `ENG.STEP` at the end of an attempt (42_engine.md, `EndOfAttempt`): one character on each half whatever the byte, then
finalisation, or a restart at half the block size, by the first half's length alone. -/
def Obligations.EngStepEndsAttempt : Prop :=
  ∀ (s : State) (b : Byte), s.est = .running → s.pos + 1 = s.len →
    s.sig[0].length < Config.params.sigCap → s.sig[1].length < Config.params.sigCap →
    (32 ≤ s.sig[0].length + 1 ∨ s.bs = 3 →
      exec (.engStep b) s
        = .next (answered 0 2
            { s with
              pos := s.len, est := .finalized
              sig := #v[s.sig[0] ++ [alphaChar (s.acc[0].extractLsb' 0 6)],
                        s.sig[1] ++ [alphaChar (s.acc[1].extractLsb' 0 6)]] })) ∧
    (¬ (32 ≤ s.sig[0].length + 1 ∨ s.bs = 3) →
      exec (.engStep b) s
        = .next (answered 0 1
            { s with
              h1 := 0, h2 := 0, h3 := 0, idx := 0, win := #v[0, 0, 0, 0, 0, 0, 0]
              acc := #v[Config.params.digestSeed, Config.params.digestSeed]
              bs := BitVec.ofNat 32 (s.bs.toNat / 2), pos := 0, sig := #v[[], []] }))

/-- A step after finalisation faults `F_NOTRUNNING` and leaves the signature and every register (60_exceptions.md R239). -/
def Obligations.StepAfterFinalisationFaults : Prop :=
  ∀ (s : State) (b : Byte), s.est = .finalized → exec (.engStep b) s = .next (faulted 10 s)

/-- Before any engine exists the three engine commands fault `F_NOENGINE`; every other command works: it is `OK` but for its
own error result, a reserved register number, or a full buffer (60_exceptions.md R238). -/
def Obligations.NoEngineFaults : Prop :=
  ∀ s : State, s.est = .idle →
    (∀ b, exec (.engStep b) s = .next (faulted 9 s)) ∧ exec .engFmt s = .next (faulted 9 s)
    ∧ (∀ x, exec (.cmpLdf x) s = .next (faulted 9 s))
    ∧ ∀ i : Instr, (∀ b, i ≠ .engStep b) → i ≠ .engFmt → (∀ x, i ≠ .cmpLdf x) →
        ∃ (t : State) (st : BitVec 4) (d : Word), exec i s = .next t ∧ t.sent = [response st d] ∧
          (st = 0 ∨ (i = .engInit 0 ∧ st = 1) ∨ (i = .cmpRun ∧ (st = 2 ∨ st = 3 ∨ st = 4)) ∨
            (∃ n, i = .rdreg n ∧ Instr.wellFormed (.rdreg n) = false ∧ st = 8) ∨
            ∃ x c, i = .cmpPush x c ∧ Config.params.cmpCap ≤ s.cmp[x].length ∧ st = 11)

/-- A step that would append to a full half faults `F_OVERFLOW`, decided before anything is written (42_engine.md,
'Signature capacity'; the reading of a half longer than `SIG_CAP` is log entry 8). -/
def Obligations.StepIntoFullHalfFaults : Prop :=
  ∀ (s : State) (b : Byte),
    let c : Word := (s.h1 + b.setWidth 32 - s.win[s.idx].setWidth 32) + (s.h2 - s.h1 + 7 * b.setWidth 32)
      + ((s.h3 <<< 5) ^^^ b.setWidth 32)
    s.est = .running →
    (s.pos + 1 = s.len ∧ (Config.params.sigCap ≤ s.sig[0].length ∨ Config.params.sigCap ≤ s.sig[1].length)) ∨
    (s.pos + 1 ≠ s.len ∧
      (((c.toNat : Int) % s.bs.toNat = (s.bs.toNat : Int) - 1 ∧ Config.params.sigCap ≤ s.sig[0].length) ∨
       ((c.toNat : Int) % (2 * s.bs.toNat) = 2 * (s.bs.toNat : Int) - 1 ∧ Config.params.sigCap ≤ s.sig[1].length))) →
    exec (.engStep b) s = .next (faulted 11 s)

/-- The byte of the last step of an attempt has no influence (42_engine.md, `EndOfAttempt`; 90_conflicts.md C9). -/
def Obligations.LastByteIsIgnored : Prop :=
  ∀ (s : State) (b b' : Byte), s.pos + 1 = s.len → exec (.engStep b) s = exec (.engStep b') s

/-- A step answers one of the five reports or faults; a trigger on the second half alone never happens (42_engine.md,
'The step report'). -/
def Obligations.StepReportsAreTheFive : Prop :=
  ∀ (s t : State) (b : Byte), exec (.engStep b) s = .next t →
    (∃ d : Word, t.sent = [response 0 d] ∧ (d = 0x000 ∨ d = 0x100 ∨ d = 0x300 ∨ d = 0x001 ∨ d = 0x002)) ∨
    t.sent = [response 9 0] ∨ t.sent = [response 10 0] ∨ t.sent = [response 11 0]

/-- `ENG.FMT` (42_engine.md R153): the text, then its length; nothing changes. -/
def Obligations.EngFmtSendsTheText : Prop :=
  WordOf .engFmt 0x3200000000 ∧ ReservedBitsFault 0x32 0xFFFFFFFF ∧ ∀ s : State,
    (s.est = .idle → exec .engFmt s = .next (faulted 9 s)) ∧
    (s.est ≠ .idle →
      let text : Text := dec s.bs.toNat ++ [colon] ++ s.sig[0] ++ [colon] ++ s.sig[1]
      exec .engFmt s = .next { s with sent := text.map .txt ++ [response 0 (BitVec.ofNat 32 text.length)] })

/-- `dec(n)` is the decimal spelling: digits only, at least one, no leading zero, and it spells `n` (00_scope.md section 4,
'Characters and text'); `value` reads digits most significant first (43_comparator.md section 2). -/
def Obligations.DecSpellsTheNumber : Prop :=
  (∀ n : Nat, Digits (dec n) ∧ decValue (dec n) = n ∧ (1 < (dec n).length → (dec n).head? ≠ some 0x30)) ∧
  decValue [] = 0 ∧ ∀ (d : Text) (c : Byte), decValue (d ++ [c]) = 10 * decValue d + (c.toNat - 0x30)

/-- The alphabet is the 64 characters in order, its inverse is exact, and `:` is not among them (20_memory.md R64,
30_encoding.md R94). -/
def Obligations.AlphabetIsTheSixtyFour : Prop :=
  (∀ i : BitVec 6, (alphaChar i).toNat
      = if i.toNat < 26 then 0x41 + i.toNat else if i.toNat < 52 then 0x61 + i.toNat - 26
        else if i.toNat < 62 then 0x30 + i.toNat - 52 else if i.toNat = 62 then 0x2B else 0x2F)
    ∧ (∀ (c : Byte) (i : BitVec 6), alphaIndex c = some i ↔ alphaChar i = c) ∧ colon = 0x3A ∧ ∀ i, alphaChar i ≠ colon

/-- Every step keeps the invariants of the engine registers, whatever leaf commands are interleaved (10_state.md section 4,
'Engine invariants', marked derived there). -/
def Obligations.StepKeepsEngineInvariants : Prop := ∀ s t : State, EngInv s → step s = .next t → EngInv t

/-- No command but `ENG.INIT` and `ENG.STEP` writes the engine registers or a half (10_state.md section 4). -/
def Obligations.OnlyInitAndStepWriteTheEngine : Prop :=
  ∀ (i : Instr) (s t : State), (∀ len, i ≠ .engInit len) → (∀ b, i ≠ .engStep b) → exec i s = .next t →
    t.bs = s.bs ∧ t.len = s.len ∧ t.pos = s.pos ∧ t.est = s.est ∧ t.sig = s.sig

/-- The transitions of the engine state: `Idle` is never entered by a command, `Running` only by `ENG.INIT`, `Finalized` only
by the step that ends an attempt (42_engine.md section 1, 'Transitions'). -/
def Obligations.EngineTransitionsAreTheListed : Prop :=
  ∀ (i : Instr) (s t : State), exec i s = .next t →
    (t.est = .idle → s.est = .idle) ∧
    (t.est = .running → s.est = .running ∨ ∃ len, len ≠ 0 ∧ i = .engInit len) ∧
    (t.est = .finalized → s.est = .finalized ∨ (s.est = .running ∧ ∃ b, i = .engStep b ∧ s.pos + 1 = s.len
      ∧ (32 ≤ s.sig[0].length + 1 ∨ s.bs = 3)))

/-- While `Finalized`, only `ENG.INIT` and the leaf commands change an engine, rolling or digest register or a half
(10_state.md section 4, 'The retry flag', marked derived there). -/
def Obligations.FinalizedEngineIsImmutable : Prop :=
  ∀ (i : Instr) (s t : State), s.est = .finalized → (∀ len, i ≠ .engInit len) → i ≠ .rollRst → (∀ b, i ≠ .rollAdv b) →
    (∀ k, i ≠ .digRst k) → (∀ k b, i ≠ .digUpd k b) → exec i s = .next t →
    t.h1 = s.h1 ∧ t.h2 = s.h2 ∧ t.h3 = s.h3 ∧ t.idx = s.idx ∧ t.win = s.win ∧ t.acc = s.acc ∧ t.bs = s.bs
      ∧ t.len = s.len ∧ t.pos = s.pos ∧ t.est = s.est ∧ t.sig = s.sig

/-- A hash always ends: after `ENG.INIT len` with `len` at most `192 * 2^n`, at most `(n + 1) * len` steps reach `Finalized`,
whatever bytes they carry, when `SIG_CAP` is at least `len` (42_engine.md section 3, 'Termination'). -/
def Obligations.HashingTerminates : Prop :=
  ∀ (s : State) (len : Word) (n : Nat) (bytes : List Byte),
    len ≠ 0 → n ≤ 25 → len.toNat ≤ 192 * 2 ^ n → len.toNat ≤ Config.params.sigCap →
    (n + 1) * len.toNat ≤ bytes.length →
    ∃ k t, k ≤ (n + 1) * len.toNat ∧ perform (.engInit len :: (bytes.take k).map .engStep) s = .next t
      ∧ t.est = .finalized

/-- The outcome of a hash is a function of the length and the bytes: two blocks in any two states that are given the same
`ENG.INIT` and the same steps agree on every engine, rolling and digest register and both halves (42_engine.md section 3,
'Derived facts about steps' (e), marked derived there). -/
def Obligations.HashDependsOnlyOnInput : Prop :=
  ∀ (s t : State) (len : Word) (bytes : List Byte), len ≠ 0 →
    ∃ s' t', perform (.engInit len :: bytes.map .engStep) s = .next s' ∧
      perform (.engInit len :: bytes.map .engStep) t = .next t' ∧
      s'.h1 = t'.h1 ∧ s'.h2 = t'.h2 ∧ s'.h3 = t'.h3 ∧ s'.idx = t'.idx ∧ s'.win = t'.win ∧ s'.acc = t'.acc
      ∧ s'.bs = t'.bs ∧ s'.len = t'.len ∧ s'.pos = t'.pos ∧ s'.est = t'.est ∧ s'.sig = t'.sig

/-! ### Signature comparator -/

/-- `CMP.CLR s` (43_comparator.md R181). -/
def Obligations.CmpClrEmptiesTheBuffer : Prop :=
  ReservedBitsFault 0x40 0xFFFFFFFE ∧ ∀ x : Fin 2, WordOf (.cmpClr x) (0x40#8 ++ BitVec.ofNat 32 x.val) ∧ ∀ s : State,
    exec (.cmpClr x) s = .next (answered 0 0 { s with cmp := s.cmp.set x [] })

/-- `CMP.PUSH s, char` (43_comparator.md, `CMP.PUSH`; the reading of a buffer longer than `CMP_CAP` is log entry 8). -/
def Obligations.CmpPushAppendsUnlessFull : Prop :=
  ReservedBitsFault 0x41 0xFFFFFE00 ∧ ∀ (x : Fin 2) (c : Byte), WordOf (.cmpPush x c) (0x41#8 ++ (0#23 ++ (BitVec.ofNat 1 x.val ++ c))) ∧ ∀ s : State,
    (s.cmp[x].length < Config.params.cmpCap →
      exec (.cmpPush x c) s
        = .next (answered 0 (BitVec.ofNat 32 (s.cmp[x].length + 1)) { s with cmp := s.cmp.set x (s.cmp[x] ++ [c]) })) ∧
    (Config.params.cmpCap ≤ s.cmp[x].length → exec (.cmpPush x c) s = .next (faulted 11 s))

/-- `CMP.LDF s` (43_comparator.md R183): the engine's text replaces the buffer, unless there is no engine or no room. -/
def Obligations.CmpLdfCopiesTheText : Prop :=
  ReservedBitsFault 0x42 0xFFFFFFFE ∧ ∀ x : Fin 2, WordOf (.cmpLdf x) (0x42#8 ++ BitVec.ofNat 32 x.val) ∧ ∀ s : State,
    let text : Text := dec s.bs.toNat ++ [colon] ++ s.sig[0] ++ [colon] ++ s.sig[1]
    (s.est = .idle → exec (.cmpLdf x) s = .next (faulted 9 s)) ∧
    (s.est ≠ .idle → Config.params.cmpCap < text.length → exec (.cmpLdf x) s = .next (faulted 11 s)) ∧
    (s.est ≠ .idle → text.length ≤ Config.params.cmpCap →
      exec (.cmpLdf x) s = .next (answered 0 (BitVec.ofNat 32 text.length) { s with cmp := s.cmp.set x text }))

/-- `CMP.RUN` (43_comparator.md R184, R185, R188): the first operand's format, then the second's, then the block sizes as
numbers, then the smaller of the two edit distances; nothing changes. -/
def Obligations.CmpRunAnswersTheComparison : Prop :=
  WordOf .cmpRun 0x4300000000 ∧ ReservedBitsFault 0x43 0xFFFFFFFF ∧ ∀ s : State,
    (¬ Grammatical s.cmp[0] → exec .cmpRun s = .next (answered 2 0 s)) ∧
    (Grammatical s.cmp[0] → ¬ Grammatical s.cmp[1] → exec .cmpRun s = .next (answered 3 0 s)) ∧
    ∀ d e r1 r2 q1 q2 : Text, Signature s.cmp[0] d r1 r2 → Signature s.cmp[1] e q1 q2 →
      (decValue d ≠ decValue e → exec .cmpRun s = .next (answered 4 0 s)) ∧
      (decValue d = decValue e →
        exec .cmpRun s = .next (answered 0 (BitVec.ofNat 32 (min (lev r1 q1) (lev r2 q2))) s))

/-- `CMP.RUN` reads only the two operands and changes nothing (43_comparator.md R180). -/
def Obligations.CmpRunReadsOnlyItsOperands : Prop :=
  ∀ s t : State, s.cmp = t.cmp →
    ∃ (st : BitVec 4) (d : Word), exec .cmpRun s = .next (answered st d s) ∧ exec .cmpRun t = .next (answered st d t)

/-- `lev` is the edit distance: that many single-character edits suffice and no fewer do; with its symmetry, its zeros, its
value at the empty text and its bounds (43_comparator.md R189). -/
def Obligations.LevIsTheEditDistance : Prop :=
  (∀ x y : Text, Edits (lev x y) x y ∧ ∀ n, Edits n x y → lev x y ≤ n) ∧
  ∀ x y : Text, lev x y = lev y x ∧ (lev x y = 0 ↔ x = y) ∧ lev x [] = x.length ∧
    x.length - y.length ≤ lev x y ∧ y.length - x.length ≤ lev x y ∧ lev x y ≤ max x.length y.length

/-- `lev` satisfies the reference recurrence over prefixes (43_comparator.md R190); the model computes over suffixes
(log entry 10). -/
def Obligations.LevMeetsPrefixRecurrence : Prop :=
  ∀ x y : Text,
    (∀ i, i ≤ x.length → lev (x.take i) [] = i) ∧ (∀ j, j ≤ y.length → lev [] (y.take j) = j) ∧
    ∀ (i j : Nat) (hi : i < x.length) (hj : j < y.length),
      lev (x.take (i + 1)) (y.take (j + 1))
        = min (min (lev (x.take i) (y.take (j + 1)) + 1) (lev (x.take (i + 1)) (y.take j) + 1))
            (lev (x.take i) (y.take j) + if x[i] = y[j] then 0 else 1)

/-- Swapping well-formed operands does not change the answer, and a well-formed text is at distance 0 from itself
(43_comparator.md section 2, 'Properties the document states as testable', marked derived there). -/
def Obligations.ComparisonIsSymmetric : Prop :=
  (∀ s t : State, Grammatical s.cmp[0] → Grammatical s.cmp[1] → t.cmp[0] = s.cmp[1] → t.cmp[1] = s.cmp[0] →
    ∃ (st : BitVec 4) (d : Word), exec .cmpRun s = .next (answered st d s) ∧ exec .cmpRun t = .next (answered st d t)) ∧
  ∀ s : State, Grammatical s.cmp[0] → s.cmp[1] = s.cmp[0] → exec .cmpRun s = .next (answered 0 0 s)

/-- A finalised signature, loaded into both buffers, is well formed and compares to 0 with no fault, when it fits
(42_engine.md section 3 'Derived facts about steps' (c), marked derived there; 43_comparator.md section 2). -/
def Obligations.FinalizedSignatureComparesToZero : Prop :=
  ∀ s : State, EngInv s → SpaceInv s → s.est = .finalized → (formatText s).length ≤ Config.params.cmpCap →
    Grammatical (formatText s) ∧
    ∃ t, perform [.cmpLdf 0, .cmpLdf 1, .cmpRun] s = .next t ∧ t.sent = [response 0 0] ∧ t.fault = s.fault
      ∧ t.sig = s.sig

/-! ### Responses and faults -/

/-- Every command produces exactly one response, after its text; the status is one of the nine codes; the data is 0 and
there is no text when the status is not `OK`; only `ENG.FMT` sends text (30_encoding.md R81). -/
def Obligations.EveryCommandAnswersOnce : Prop :=
  ∀ (i : Instr) (s : State), ∃ (t : State) (text : Text) (st : BitVec 4) (d : Word),
    exec i s = .next t ∧ t.sent = text.map .txt ++ [response st d] ∧ st ∈ [0, 1, 2, 3, 4, 8, 9, 10, 11] ∧
    (st ≠ 0 → d = 0 ∧ text = []) ∧ (text ≠ [] → i = .engFmt)

/-- An error result changes nothing; a fault, of an illegal word too, changes only the fault record, and the first fault wins
(60_exceptions.md R230, R236). -/
def Obligations.RefusedCommandsChangeOnlyTheRecord : Prop :=
  (∀ (i : Instr) (s t : State) (st : BitVec 4) (d : Word), exec i s = .next t → t.sent = [response st d] →
    (st.toNat = 0 ∨ (1 ≤ st.toNat ∧ st.toNat ≤ 4) ∨ (8 ≤ st.toNat ∧ st.toNat ≤ 11)) ∧
    (1 ≤ st.toNat ∧ st.toNat ≤ 4 → t = answered st 0 s) ∧ (8 ≤ st.toNat → t = faulted st s) ∧
    (st.toNat < 8 → t.fault = s.fault ∧ t.fcause = s.fcause)) ∧
  ∀ (w : CmdWord) (e : DecodeError) (s : State), decode w = .error e → takeWord w s = .settled (faulted 8 s)

/-- The fault record is cleared only by reset, and the first cause stays (60_exceptions.md section 3, 'Return and nesting'). -/
def Obligations.OnlyResetClearsTheFaultRecord : Prop :=
  ∀ s t : State, s.fault = true → step s = .next t →
    (t.fault = true ∧ t.fcause = s.fcause) ∨ s.rst = true ∨ (∃ rest, s.inputs = .rst :: rest) ∨
      ∃ w n rest, s.inputs = .rstDuring w n :: rest

/-- Every step keeps the fault record in its legal values (10_state.md section 4; 60_exceptions.md section 3). -/
def Obligations.StepKeepsFaultRecordLegal : Prop := ∀ s t : State, FaultInv s → step s = .next t → FaultInv t

/-- Every step keeps the character spaces within their capacities and the halves over the alphabet (20_memory.md
sections 1 and 2). -/
def Obligations.StepKeepsCharacterSpaces : Prop := ∀ s t : State, SpaceInv s → step s = .next t → SpaceInv t

/-- The four invariants hold after reset. -/
def Obligations.InvariantsHoldAtReset : Prop :=
  RollInv State.reset ∧ EngInv State.reset ∧ FaultInv State.reset ∧ SpaceInv State.reset

/-! ### While `rst` is asserted -/

/-- While `rst` is asserted every step leaves the reset state and sends nothing: a command word presented is not accepted, only
the release ends it (70_reset_and_hazards.md section 1; log entry 5). -/
def Obligations.HeldResetAcceptsNothing : Prop :=
  ∀ s : State, s.rst = true →
    (s.inputs = [] → step s = .next { State.reset with rst := true }) ∧
    (∀ (a : HostInput) (rest : List HostInput), a ≠ .release → s.inputs = a :: rest →
      step s = .next { State.reset with rst := true, inputs := rest }) ∧
    ∀ rest : List HostInput, s.inputs = .release :: rest → step s = .next { State.reset with inputs := rest }

/-- After any step that leaves `rst` asserted `cmd_ready` is 0 and the level outputs show the reset state, and so does every
piece of state; after the step that releases it the block is in `Idle`, with no fault, and ready (70_reset_and_hazards.md
section 1; log entry 5). -/
def Obligations.OutputsShowResetWhileHeld : Prop :=
  ∀ s t : State, step s = .next t →
    (t.rst = true → cmdReady t = false ∧ runningPin t = false ∧ donePin t = false ∧ faultPin t = false ∧
      t = { State.reset with rst := true, inputs := t.inputs, sent := t.sent }) ∧
    (s.rst = true → t.rst = false → cmdReady t = true ∧ t = { State.reset with inputs := t.inputs })
end

