-- ==== Sys2Proof/Laws/Decode.lean ====
section
/-! SUPPORT. The fields of a command word laid out by each format, in both directions. -/

namespace Sys2Proof

@[simp] theorem opField_append (op : BitVec 8) (arg : Word) : opField (op ++ arg) = op :=
  BitVec.extractLsb'_append_eq_left

@[simp] theorem argField_append (op : BitVec 8) (arg : Word) : argField (op ++ arg) = arg :=
  BitVec.extractLsb'_append_eq_right

/-- A word is its opcode and its argument. -/
theorem opField_append_argField (w : CmdWord) : opField w ++ argField w = w := by
  ext i hi
  simp only [opField, argField, BitVec.getElem_append, BitVec.getElem_extractLsb']
  by_cases h : i < 32
  · simp [h, BitVec.getLsbD_eq_getElem hi]
  · have : 32 + (i - 32) = i := by omega
    simp [h, this, BitVec.getLsbD_eq_getElem hi]

theorem decodeAB_argument (op : BitVec 8) (b : Byte) (f : Byte → Instr) : decodeAB op (0#24 ++ b) f = .ok (f b) := by
  have h : ∀ b : Byte, (0#24 ++ b).extractLsb' 8 24 = 0#24 ∧ byteField (0#24 ++ b) = b := by decide
  simp only [decodeAB, h b, if_true]

theorem decodeAK_argument (op : BitVec 8) (k : Fin 2) (f : Fin 2 → Instr) :
    decodeAK op (0#31 ++ selectorBit k) f = .ok (f k) := by
  have h : ∀ k : Fin 2, (0#31 ++ selectorBit k).extractLsb' 1 31 = 0#31
      ∧ selector ((0#31 ++ selectorBit k).getLsbD 0) = k := by decide
  rw [decodeAK, (h k).1, (h k).2, if_pos rfl]

theorem decodeAKB_argument (op : BitVec 8) (k : Fin 2) (b : Byte) (f : Fin 2 → Byte → Instr) :
    decodeAKB op (0#23 ++ (selectorBit k ++ b)) f = .ok (f k b) := by
  have h : ∀ (k : Fin 2) (b : Byte), (0#23 ++ (selectorBit k ++ b)).extractLsb' 9 23 = 0#23
      ∧ selector ((0#23 ++ (selectorBit k ++ b)).getLsbD 8) = k
      ∧ byteField (0#23 ++ (selectorBit k ++ b)) = b := by decide
  rw [decodeAKB, (h k b).1, (h k b).2.1, (h k b).2.2, if_pos rfl]

/-- An argument whose bits 31:8 are 0 is its byte. -/
theorem zeros_append_byteField (a : Word) (h : a.extractLsb' 8 24 = 0#24) : 0#24 ++ byteField a = a := by
  rw [← h]
  apply BitVec.eq_of_getLsbD_eq
  intro i hi
  refine (BitVec.getLsbD_append (x := a.extractLsb' 8 24) (y := byteField a) (i := i)).trans ?_
  by_cases h8 : i < 8
  · simp [h8, byteField]
  · have e : 8 + (i - 8) = i := by omega
    simp [h8, e]
    intro
    omega

theorem selectorBit_selector (b : Bool) : selectorBit (selector b) = BitVec.ofBool b := by revert b; decide

/-- An argument whose bits 31:1 are 0 is its selector. -/
theorem zeros_append_selector (a : Word) (h : a.extractLsb' 1 31 = 0#31) :
    0#31 ++ selectorBit (selector (a.getLsbD 0)) = a := by
  rw [selectorBit_selector, ← h]
  apply BitVec.eq_of_getLsbD_eq
  intro i hi
  refine (BitVec.getLsbD_append (x := a.extractLsb' 1 31) (y := BitVec.ofBool (a.getLsbD 0)) (i := i)).trans ?_
  by_cases h1 : i < 1
  · have : i = 0 := by omega
    subst this
    simp
  · have e : 1 + (i - 1) = i := by omega
    simp [h1, e]
    intro
    omega

/-- An argument whose bits 31:9 are 0 is its selector and its byte. -/
theorem zeros_append_selector_byteField (a : Word) (h : a.extractLsb' 9 23 = 0#23) :
    0#23 ++ (selectorBit (selector (a.getLsbD 8)) ++ byteField a) = a := by
  rw [selectorBit_selector, ← h]
  apply BitVec.eq_of_getLsbD_eq
  intro i hi
  refine (BitVec.getLsbD_append (x := a.extractLsb' 9 23) (y := BitVec.ofBool (a.getLsbD 8) ++ byteField a)
    (i := i)).trans ?_
  by_cases h9 : i < 9
  · rw [if_pos h9]
    refine (BitVec.getLsbD_append (x := BitVec.ofBool (a.getLsbD 8)) (y := byteField a) (i := i)).trans ?_
    by_cases h8 : i < 8
    · simp [h8, byteField]
    · have : i = 8 := by omega
      subst this
      simp
  · have e : 9 + (i - 9) = i := by omega
    simp [h9, e]
    intro
    omega

/-- What each format accepts, and as what. -/
theorem decodeA0_eq_ok {op : BitVec 8} {arg : Word} {i j : Instr} (h : decodeA0 op arg i = .ok j) : arg = 0#32 ∧ j = i := by
  unfold decodeA0 at h
  split at h
  · rename_i ha
    injection h with h
    exact ⟨ha, h.symm⟩
  · cases h

theorem decodeAB_eq_ok {op : BitVec 8} {arg : Word} {f : Byte → Instr} {j : Instr} (h : decodeAB op arg f = .ok j) :
    ∃ b, arg = 0#24 ++ b ∧ j = f b := by
  unfold decodeAB at h
  split at h
  · rename_i ha
    injection h with h
    exact ⟨_, (zeros_append_byteField arg ha).symm, h.symm⟩
  · cases h

theorem decodeAK_eq_ok {op : BitVec 8} {arg : Word} {f : Fin 2 → Instr} {j : Instr} (h : decodeAK op arg f = .ok j) :
    ∃ k, arg = 0#31 ++ selectorBit k ∧ j = f k := by
  unfold decodeAK at h
  split at h
  · rename_i ha
    injection h with h
    exact ⟨_, (zeros_append_selector arg ha).symm, h.symm⟩
  · cases h

theorem decodeAKB_eq_ok {op : BitVec 8} {arg : Word} {f : Fin 2 → Byte → Instr} {j : Instr}
    (h : decodeAKB op arg f = .ok j) : ∃ k b, arg = 0#23 ++ (selectorBit k ++ b) ∧ j = f k b := by
  unfold decodeAKB at h
  split at h
  · rename_i ha
    injection h with h
    exact ⟨_, _, (zeros_append_selector_byteField arg ha).symm, h.symm⟩
  · cases h

end Sys2Proof
end

