-- ==== Sys2Proof/Laws/Distance.lean ====
section
/-! SUPPORT. What `lev` computes: its value at the empty texts and its recurrence at two non-empty ones. -/

namespace Sys2Proof.Machine

theorem levBase_eq_cons (ys : Text) : ∃ row, levBase ys = ys.length :: row ∧ row = (levBase ys).tail := by
  cases ys <;> exact ⟨_, rfl, rfl⟩

theorem levStep_length (c : Byte) (ys : Text) (row : List Nat) (h : row.length = ys.length + 1) :
    (levStep c ys row).length = ys.length + 1 := by
  induction ys generalizing row with
  | nil => match row, h with | [d], _ => rfl
  | cons y ys ih =>
    match row, h with
    | d :: e :: row, h =>
      have := ih (e :: row) (by simpa using h)
      cases hr : levStep c ys (e :: row) with
      | nil => simp [hr] at this
      | cons r rs => simp [levStep, hr] at this ⊢; omega

theorem levRow_length (xs ys : Text) : (levRow xs ys).length = ys.length + 1 := by
  induction xs with
  | nil => induction ys with
    | nil => rfl
    | cons y ys ih => simpa [levRow, levBase] using ih
  | cons x xs ih => exact levStep_length x ys _ ih

theorem levStep_tail (c y : Byte) (ys : Text) (row : List Nat) (h : row.length = ys.length + 2) :
    (levStep c (y :: ys) row).tail = levStep c ys row.tail := by
  match row, h with
  | d :: e :: row, h =>
    have := levStep_length c ys (e :: row) (by simpa using h)
    cases hr : levStep c ys (e :: row) with
    | nil => simp [hr] at this
    | cons r rs => simp [levStep, hr]

/-- Dropping the first character of the second text drops the first entry of the row. -/
theorem levRow_tail (xs : Text) (y : Byte) (ys : Text) : (levRow xs (y :: ys)).tail = levRow xs ys := by
  induction xs with
  | nil => rfl
  | cons x xs ih => rw [levRow, levStep_tail _ _ _ _ (levRow_length xs (y :: ys)), ih, levRow]

/-- A row is the distance to the whole text followed by the row for the rest. -/
theorem levRow_cons (xs : Text) (y : Byte) (ys : Text) : levRow xs (y :: ys) = lev xs (y :: ys) :: levRow xs ys := by
  have hl := levRow_length xs (y :: ys)
  have ht := levRow_tail xs y ys
  cases h : levRow xs (y :: ys) with
  | nil => simp [h] at hl
  | cons d row => simp [h] at ht; simp [lev, h, ht]

theorem levRow_nil (xs : Text) : levRow xs [] = [lev xs []] := by
  have hl := levRow_length xs []
  match h : levRow xs [], hl with
  | [d], _ => simp [lev, h]

@[simp] theorem lev_nil_left (ys : Text) : lev [] ys = ys.length := by cases ys <;> rfl

@[simp] theorem lev_nil_right (xs : Text) : lev xs [] = xs.length := by
  induction xs with
  | nil => rfl
  | cons x xs ih =>
    have : levRow (x :: xs) [] = [lev xs [] + 1] := by rw [levRow, levRow_nil]; rfl
    simp [lev, this]; simpa [lev] using ih

/-- The recurrence: delete, insert, or keep or substitute the first character. -/
theorem lev_cons_cons (x y : Byte) (xs ys : Text) :
    lev (x :: xs) (y :: ys)
      = min (min (lev xs (y :: ys) + 1) (lev (x :: xs) ys + 1)) (lev xs ys + if x = y then 0 else 1) := by
  obtain ⟨e, row, hrow⟩ : ∃ e row, levRow xs ys = e :: row := by
    cases h : levRow xs ys with
    | nil => simpa [h] using levRow_length xs ys
    | cons e row => exact ⟨e, row, rfl⟩
  have he : lev xs ys = e := by simp [lev, hrow]
  have hstep : levRow (x :: xs) ys = levStep x ys (e :: row) := by rw [levRow, hrow]
  have hlen := levRow_length (x :: xs) ys
  cases hr : levStep x ys (e :: row) with
  | nil => simp [hstep, hr] at hlen
  | cons r rs =>
    have hins : lev (x :: xs) ys = r := by simp [lev, hstep, hr]
    have : levRow (x :: xs) (y :: ys) = levStep x (y :: ys) (lev xs (y :: ys) :: e :: row) := by
      rw [levRow, levRow_cons, hrow]
    rw [he, hins]
    simp only [lev, this, levStep, hr, List.headD_cons]

end Sys2Proof.Machine
end

