-- ==== Sys2Proof/Laws/State.lean ====
section
/-! SUPPORT. The fields of a state after each shared operation: one lemma per field per update, so that no proof unfolds a
record update. -/

namespace Sys2Proof.Machine

variable (s : State)

section respondFields

variable (st : Status) (data : Word) (text : Text)

@[simp] theorem respond_h1 : (respond st data text s).h1 = s.h1 := rfl
@[simp] theorem respond_h2 : (respond st data text s).h2 = s.h2 := rfl
@[simp] theorem respond_h3 : (respond st data text s).h3 = s.h3 := rfl
@[simp] theorem respond_idx : (respond st data text s).idx = s.idx := rfl
@[simp] theorem respond_win : (respond st data text s).win = s.win := rfl
@[simp] theorem respond_acc : (respond st data text s).acc = s.acc := rfl
@[simp] theorem respond_bs : (respond st data text s).bs = s.bs := rfl
@[simp] theorem respond_len : (respond st data text s).len = s.len := rfl
@[simp] theorem respond_pos : (respond st data text s).pos = s.pos := rfl
@[simp] theorem respond_est : (respond st data text s).est = s.est := rfl
@[simp] theorem respond_fault : (respond st data text s).fault = s.fault := rfl
@[simp] theorem respond_fcause : (respond st data text s).fcause = s.fcause := rfl
@[simp] theorem respond_sig : (respond st data text s).sig = s.sig := rfl
@[simp] theorem respond_cmp : (respond st data text s).cmp = s.cmp := rfl
@[simp] theorem respond_rst : (respond st data text s).rst = s.rst := rfl
@[simp] theorem respond_inputs : (respond st data text s).inputs = s.inputs := rfl
@[simp] theorem respond_sent : (respond st data text s).sent = text.map .txt ++ [.resp (respWord st data)] := rfl

end respondFields

section raiseFaultFields

variable (f : FaultCode)

@[simp] theorem raiseFault_h1 : (raiseFault f s).h1 = s.h1 := rfl
@[simp] theorem raiseFault_h2 : (raiseFault f s).h2 = s.h2 := rfl
@[simp] theorem raiseFault_h3 : (raiseFault f s).h3 = s.h3 := rfl
@[simp] theorem raiseFault_idx : (raiseFault f s).idx = s.idx := rfl
@[simp] theorem raiseFault_win : (raiseFault f s).win = s.win := rfl
@[simp] theorem raiseFault_acc : (raiseFault f s).acc = s.acc := rfl
@[simp] theorem raiseFault_bs : (raiseFault f s).bs = s.bs := rfl
@[simp] theorem raiseFault_len : (raiseFault f s).len = s.len := rfl
@[simp] theorem raiseFault_pos : (raiseFault f s).pos = s.pos := rfl
@[simp] theorem raiseFault_est : (raiseFault f s).est = s.est := rfl
@[simp] theorem raiseFault_fault : (raiseFault f s).fault = true := rfl
@[simp] theorem raiseFault_fcause : (raiseFault f s).fcause = if s.fault then s.fcause else f.code := rfl
@[simp] theorem raiseFault_sig : (raiseFault f s).sig = s.sig := rfl
@[simp] theorem raiseFault_cmp : (raiseFault f s).cmp = s.cmp := rfl
@[simp] theorem raiseFault_rst : (raiseFault f s).rst = s.rst := rfl
@[simp] theorem raiseFault_inputs : (raiseFault f s).inputs = s.inputs := rfl
@[simp] theorem raiseFault_sent : (raiseFault f s).sent = [.resp (respWord (.fault f) 0)] := rfl

end raiseFaultFields

section setAccFields

variable (k : Fin 2) (v : Word)

@[simp] theorem setAcc_h1 : (setAcc k v s).h1 = s.h1 := rfl
@[simp] theorem setAcc_h2 : (setAcc k v s).h2 = s.h2 := rfl
@[simp] theorem setAcc_h3 : (setAcc k v s).h3 = s.h3 := rfl
@[simp] theorem setAcc_idx : (setAcc k v s).idx = s.idx := rfl
@[simp] theorem setAcc_win : (setAcc k v s).win = s.win := rfl
@[simp] theorem setAcc_acc : (setAcc k v s).acc = s.acc.set k v := rfl
@[simp] theorem setAcc_bs : (setAcc k v s).bs = s.bs := rfl
@[simp] theorem setAcc_len : (setAcc k v s).len = s.len := rfl
@[simp] theorem setAcc_pos : (setAcc k v s).pos = s.pos := rfl
@[simp] theorem setAcc_est : (setAcc k v s).est = s.est := rfl
@[simp] theorem setAcc_fault : (setAcc k v s).fault = s.fault := rfl
@[simp] theorem setAcc_fcause : (setAcc k v s).fcause = s.fcause := rfl
@[simp] theorem setAcc_sig : (setAcc k v s).sig = s.sig := rfl
@[simp] theorem setAcc_cmp : (setAcc k v s).cmp = s.cmp := rfl
@[simp] theorem setAcc_rst : (setAcc k v s).rst = s.rst := rfl
@[simp] theorem setAcc_inputs : (setAcc k v s).inputs = s.inputs := rfl
@[simp] theorem setAcc_sent : (setAcc k v s).sent = s.sent := rfl

end setAccFields

section setSigFields

variable (k : Fin 2) (t : Text)

@[simp] theorem setSig_h1 : (setSig k t s).h1 = s.h1 := rfl
@[simp] theorem setSig_h2 : (setSig k t s).h2 = s.h2 := rfl
@[simp] theorem setSig_h3 : (setSig k t s).h3 = s.h3 := rfl
@[simp] theorem setSig_idx : (setSig k t s).idx = s.idx := rfl
@[simp] theorem setSig_win : (setSig k t s).win = s.win := rfl
@[simp] theorem setSig_acc : (setSig k t s).acc = s.acc := rfl
@[simp] theorem setSig_bs : (setSig k t s).bs = s.bs := rfl
@[simp] theorem setSig_len : (setSig k t s).len = s.len := rfl
@[simp] theorem setSig_pos : (setSig k t s).pos = s.pos := rfl
@[simp] theorem setSig_est : (setSig k t s).est = s.est := rfl
@[simp] theorem setSig_fault : (setSig k t s).fault = s.fault := rfl
@[simp] theorem setSig_fcause : (setSig k t s).fcause = s.fcause := rfl
@[simp] theorem setSig_sig : (setSig k t s).sig = s.sig.set k t := rfl
@[simp] theorem setSig_cmp : (setSig k t s).cmp = s.cmp := rfl
@[simp] theorem setSig_rst : (setSig k t s).rst = s.rst := rfl
@[simp] theorem setSig_inputs : (setSig k t s).inputs = s.inputs := rfl
@[simp] theorem setSig_sent : (setSig k t s).sent = s.sent := rfl

end setSigFields

section setCmpFields

variable (x : Fin 2) (t : Text)

@[simp] theorem setCmp_h1 : (setCmp x t s).h1 = s.h1 := rfl
@[simp] theorem setCmp_h2 : (setCmp x t s).h2 = s.h2 := rfl
@[simp] theorem setCmp_h3 : (setCmp x t s).h3 = s.h3 := rfl
@[simp] theorem setCmp_idx : (setCmp x t s).idx = s.idx := rfl
@[simp] theorem setCmp_win : (setCmp x t s).win = s.win := rfl
@[simp] theorem setCmp_acc : (setCmp x t s).acc = s.acc := rfl
@[simp] theorem setCmp_bs : (setCmp x t s).bs = s.bs := rfl
@[simp] theorem setCmp_len : (setCmp x t s).len = s.len := rfl
@[simp] theorem setCmp_pos : (setCmp x t s).pos = s.pos := rfl
@[simp] theorem setCmp_est : (setCmp x t s).est = s.est := rfl
@[simp] theorem setCmp_fault : (setCmp x t s).fault = s.fault := rfl
@[simp] theorem setCmp_fcause : (setCmp x t s).fcause = s.fcause := rfl
@[simp] theorem setCmp_sig : (setCmp x t s).sig = s.sig := rfl
@[simp] theorem setCmp_cmp : (setCmp x t s).cmp = s.cmp.set x t := rfl
@[simp] theorem setCmp_rst : (setCmp x t s).rst = s.rst := rfl
@[simp] theorem setCmp_inputs : (setCmp x t s).inputs = s.inputs := rfl
@[simp] theorem setCmp_sent : (setCmp x t s).sent = s.sent := rfl

end setCmpFields

section rollResetFields

@[simp] theorem rollReset_h1 : (rollReset s).h1 = 0 := rfl
@[simp] theorem rollReset_h2 : (rollReset s).h2 = 0 := rfl
@[simp] theorem rollReset_h3 : (rollReset s).h3 = 0 := rfl
@[simp] theorem rollReset_idx : (rollReset s).idx = 0 := rfl
@[simp] theorem rollReset_win : (rollReset s).win = Vector.replicate 7 0 := rfl
@[simp] theorem rollReset_acc : (rollReset s).acc = s.acc := rfl
@[simp] theorem rollReset_bs : (rollReset s).bs = s.bs := rfl
@[simp] theorem rollReset_len : (rollReset s).len = s.len := rfl
@[simp] theorem rollReset_pos : (rollReset s).pos = s.pos := rfl
@[simp] theorem rollReset_est : (rollReset s).est = s.est := rfl
@[simp] theorem rollReset_fault : (rollReset s).fault = s.fault := rfl
@[simp] theorem rollReset_fcause : (rollReset s).fcause = s.fcause := rfl
@[simp] theorem rollReset_sig : (rollReset s).sig = s.sig := rfl
@[simp] theorem rollReset_cmp : (rollReset s).cmp = s.cmp := rfl
@[simp] theorem rollReset_rst : (rollReset s).rst = s.rst := rfl
@[simp] theorem rollReset_inputs : (rollReset s).inputs = s.inputs := rfl
@[simp] theorem rollReset_sent : (rollReset s).sent = s.sent := rfl

end rollResetFields

section advanceFields

variable (byte : Byte)

@[simp] theorem advance_h1 : (advance byte s).h1 = s.h1 + zext byte - zext s.win[s.idx] := rfl
@[simp] theorem advance_h2 : (advance byte s).h2 = s.h2 - s.h1 + 7 * zext byte := rfl
@[simp] theorem advance_h3 : (advance byte s).h3 = (s.h3 <<< 5) ^^^ zext byte := rfl
@[simp] theorem advance_idx : (advance byte s).idx = s.idx + 1 := rfl
@[simp] theorem advance_win : (advance byte s).win = s.win.set s.idx byte := rfl
@[simp] theorem advance_acc : (advance byte s).acc = s.acc := rfl
@[simp] theorem advance_bs : (advance byte s).bs = s.bs := rfl
@[simp] theorem advance_len : (advance byte s).len = s.len := rfl
@[simp] theorem advance_pos : (advance byte s).pos = s.pos := rfl
@[simp] theorem advance_est : (advance byte s).est = s.est := rfl
@[simp] theorem advance_fault : (advance byte s).fault = s.fault := rfl
@[simp] theorem advance_fcause : (advance byte s).fcause = s.fcause := rfl
@[simp] theorem advance_sig : (advance byte s).sig = s.sig := rfl
@[simp] theorem advance_cmp : (advance byte s).cmp = s.cmp := rfl
@[simp] theorem advance_rst : (advance byte s).rst = s.rst := rfl
@[simp] theorem advance_inputs : (advance byte s).inputs = s.inputs := rfl
@[simp] theorem advance_sent : (advance byte s).sent = s.sent := rfl

end advanceFields

section digestResetFields

variable (p : Params) (k : Fin 2)

@[simp] theorem digestReset_h1 : (digestReset p k s).h1 = s.h1 := rfl
@[simp] theorem digestReset_h2 : (digestReset p k s).h2 = s.h2 := rfl
@[simp] theorem digestReset_h3 : (digestReset p k s).h3 = s.h3 := rfl
@[simp] theorem digestReset_idx : (digestReset p k s).idx = s.idx := rfl
@[simp] theorem digestReset_win : (digestReset p k s).win = s.win := rfl
@[simp] theorem digestReset_acc : (digestReset p k s).acc = s.acc.set k p.digestSeed := rfl
@[simp] theorem digestReset_bs : (digestReset p k s).bs = s.bs := rfl
@[simp] theorem digestReset_len : (digestReset p k s).len = s.len := rfl
@[simp] theorem digestReset_pos : (digestReset p k s).pos = s.pos := rfl
@[simp] theorem digestReset_est : (digestReset p k s).est = s.est := rfl
@[simp] theorem digestReset_fault : (digestReset p k s).fault = s.fault := rfl
@[simp] theorem digestReset_fcause : (digestReset p k s).fcause = s.fcause := rfl
@[simp] theorem digestReset_sig : (digestReset p k s).sig = s.sig := rfl
@[simp] theorem digestReset_cmp : (digestReset p k s).cmp = s.cmp := rfl
@[simp] theorem digestReset_rst : (digestReset p k s).rst = s.rst := rfl
@[simp] theorem digestReset_inputs : (digestReset p k s).inputs = s.inputs := rfl
@[simp] theorem digestReset_sent : (digestReset p k s).sent = s.sent := rfl

end digestResetFields

section digestUpdateFields

variable (k : Fin 2) (byte : Byte)

@[simp] theorem digestUpdate_h1 : (digestUpdate k byte s).h1 = s.h1 := rfl
@[simp] theorem digestUpdate_h2 : (digestUpdate k byte s).h2 = s.h2 := rfl
@[simp] theorem digestUpdate_h3 : (digestUpdate k byte s).h3 = s.h3 := rfl
@[simp] theorem digestUpdate_idx : (digestUpdate k byte s).idx = s.idx := rfl
@[simp] theorem digestUpdate_win : (digestUpdate k byte s).win = s.win := rfl
@[simp] theorem digestUpdate_acc : (digestUpdate k byte s).acc = s.acc.set k (mulXor s.acc[k] byte) := rfl
@[simp] theorem digestUpdate_bs : (digestUpdate k byte s).bs = s.bs := rfl
@[simp] theorem digestUpdate_len : (digestUpdate k byte s).len = s.len := rfl
@[simp] theorem digestUpdate_pos : (digestUpdate k byte s).pos = s.pos := rfl
@[simp] theorem digestUpdate_est : (digestUpdate k byte s).est = s.est := rfl
@[simp] theorem digestUpdate_fault : (digestUpdate k byte s).fault = s.fault := rfl
@[simp] theorem digestUpdate_fcause : (digestUpdate k byte s).fcause = s.fcause := rfl
@[simp] theorem digestUpdate_sig : (digestUpdate k byte s).sig = s.sig := rfl
@[simp] theorem digestUpdate_cmp : (digestUpdate k byte s).cmp = s.cmp := rfl
@[simp] theorem digestUpdate_rst : (digestUpdate k byte s).rst = s.rst := rfl
@[simp] theorem digestUpdate_inputs : (digestUpdate k byte s).inputs = s.inputs := rfl
@[simp] theorem digestUpdate_sent : (digestUpdate k byte s).sent = s.sent := rfl

end digestUpdateFields

section emitFields

variable (k : Fin 2)

@[simp] theorem emit_h1 : (emit k s).h1 = s.h1 := rfl
@[simp] theorem emit_h2 : (emit k s).h2 = s.h2 := rfl
@[simp] theorem emit_h3 : (emit k s).h3 = s.h3 := rfl
@[simp] theorem emit_idx : (emit k s).idx = s.idx := rfl
@[simp] theorem emit_win : (emit k s).win = s.win := rfl
@[simp] theorem emit_acc : (emit k s).acc = s.acc := rfl
@[simp] theorem emit_bs : (emit k s).bs = s.bs := rfl
@[simp] theorem emit_len : (emit k s).len = s.len := rfl
@[simp] theorem emit_pos : (emit k s).pos = s.pos := rfl
@[simp] theorem emit_est : (emit k s).est = s.est := rfl
@[simp] theorem emit_fault : (emit k s).fault = s.fault := rfl
@[simp] theorem emit_fcause : (emit k s).fcause = s.fcause := rfl
@[simp] theorem emit_sig : (emit k s).sig = s.sig.set k (s.sig[k] ++ [ch s.acc[k]]) := rfl
@[simp] theorem emit_cmp : (emit k s).cmp = s.cmp := rfl
@[simp] theorem emit_rst : (emit k s).rst = s.rst := rfl
@[simp] theorem emit_inputs : (emit k s).inputs = s.inputs := rfl
@[simp] theorem emit_sent : (emit k s).sent = s.sent := rfl

end emitFields

section attemptResetFields

variable (p : Params)

@[simp] theorem attemptReset_h1 : (attemptReset p s).h1 = 0 := rfl
@[simp] theorem attemptReset_h2 : (attemptReset p s).h2 = 0 := rfl
@[simp] theorem attemptReset_h3 : (attemptReset p s).h3 = 0 := rfl
@[simp] theorem attemptReset_idx : (attemptReset p s).idx = 0 := rfl
@[simp] theorem attemptReset_win : (attemptReset p s).win = Vector.replicate 7 0 := rfl
@[simp] theorem attemptReset_acc : (attemptReset p s).acc = (s.acc.set 0 p.digestSeed).set 1 p.digestSeed := rfl
@[simp] theorem attemptReset_bs : (attemptReset p s).bs = s.bs := rfl
@[simp] theorem attemptReset_len : (attemptReset p s).len = s.len := rfl
@[simp] theorem attemptReset_pos : (attemptReset p s).pos = 0 := rfl
@[simp] theorem attemptReset_est : (attemptReset p s).est = s.est := rfl
@[simp] theorem attemptReset_fault : (attemptReset p s).fault = s.fault := rfl
@[simp] theorem attemptReset_fcause : (attemptReset p s).fcause = s.fcause := rfl
@[simp] theorem attemptReset_sig : (attemptReset p s).sig = (s.sig.set 0 []).set 1 [] := rfl
@[simp] theorem attemptReset_cmp : (attemptReset p s).cmp = s.cmp := rfl
@[simp] theorem attemptReset_rst : (attemptReset p s).rst = s.rst := rfl
@[simp] theorem attemptReset_inputs : (attemptReset p s).inputs = s.inputs := rfl
@[simp] theorem attemptReset_sent : (attemptReset p s).sent = s.sent := rfl

end attemptResetFields

section assertResetFields

variable (p : Params) (text : Text)

@[simp] theorem assertReset_h1 : (assertReset p text s).h1 = (State.resetWith p).h1 := rfl
@[simp] theorem assertReset_h2 : (assertReset p text s).h2 = (State.resetWith p).h2 := rfl
@[simp] theorem assertReset_h3 : (assertReset p text s).h3 = (State.resetWith p).h3 := rfl
@[simp] theorem assertReset_idx : (assertReset p text s).idx = (State.resetWith p).idx := rfl
@[simp] theorem assertReset_win : (assertReset p text s).win = (State.resetWith p).win := rfl
@[simp] theorem assertReset_acc : (assertReset p text s).acc = (State.resetWith p).acc := rfl
@[simp] theorem assertReset_bs : (assertReset p text s).bs = (State.resetWith p).bs := rfl
@[simp] theorem assertReset_len : (assertReset p text s).len = (State.resetWith p).len := rfl
@[simp] theorem assertReset_pos : (assertReset p text s).pos = (State.resetWith p).pos := rfl
@[simp] theorem assertReset_est : (assertReset p text s).est = (State.resetWith p).est := rfl
@[simp] theorem assertReset_fault : (assertReset p text s).fault = (State.resetWith p).fault := rfl
@[simp] theorem assertReset_fcause : (assertReset p text s).fcause = (State.resetWith p).fcause := rfl
@[simp] theorem assertReset_sig : (assertReset p text s).sig = (State.resetWith p).sig := rfl
@[simp] theorem assertReset_cmp : (assertReset p text s).cmp = (State.resetWith p).cmp := rfl
@[simp] theorem assertReset_rst : (assertReset p text s).rst = true := rfl
@[simp] theorem assertReset_inputs : (assertReset p text s).inputs = s.inputs := rfl
@[simp] theorem assertReset_sent : (assertReset p text s).sent = text.map .txt := rfl

end assertResetFields

section releaseResetFields

variable (p : Params)

@[simp] theorem releaseReset_h1 : (releaseReset p s).h1 = (State.resetWith p).h1 := rfl
@[simp] theorem releaseReset_h2 : (releaseReset p s).h2 = (State.resetWith p).h2 := rfl
@[simp] theorem releaseReset_h3 : (releaseReset p s).h3 = (State.resetWith p).h3 := rfl
@[simp] theorem releaseReset_idx : (releaseReset p s).idx = (State.resetWith p).idx := rfl
@[simp] theorem releaseReset_win : (releaseReset p s).win = (State.resetWith p).win := rfl
@[simp] theorem releaseReset_acc : (releaseReset p s).acc = (State.resetWith p).acc := rfl
@[simp] theorem releaseReset_bs : (releaseReset p s).bs = (State.resetWith p).bs := rfl
@[simp] theorem releaseReset_len : (releaseReset p s).len = (State.resetWith p).len := rfl
@[simp] theorem releaseReset_pos : (releaseReset p s).pos = (State.resetWith p).pos := rfl
@[simp] theorem releaseReset_est : (releaseReset p s).est = (State.resetWith p).est := rfl
@[simp] theorem releaseReset_fault : (releaseReset p s).fault = (State.resetWith p).fault := rfl
@[simp] theorem releaseReset_fcause : (releaseReset p s).fcause = (State.resetWith p).fcause := rfl
@[simp] theorem releaseReset_sig : (releaseReset p s).sig = (State.resetWith p).sig := rfl
@[simp] theorem releaseReset_cmp : (releaseReset p s).cmp = (State.resetWith p).cmp := rfl
@[simp] theorem releaseReset_rst : (releaseReset p s).rst = false := rfl
@[simp] theorem releaseReset_inputs : (releaseReset p s).inputs = s.inputs := rfl
@[simp] theorem releaseReset_sent : (releaseReset p s).sent = [] := rfl

end releaseResetFields

section placeWordFields

variable (w : CmdWord)

@[simp] theorem placeWord_h1 : (placeWord w s).h1 = s.h1 := rfl
@[simp] theorem placeWord_h2 : (placeWord w s).h2 = s.h2 := rfl
@[simp] theorem placeWord_h3 : (placeWord w s).h3 = s.h3 := rfl
@[simp] theorem placeWord_idx : (placeWord w s).idx = s.idx := rfl
@[simp] theorem placeWord_win : (placeWord w s).win = s.win := rfl
@[simp] theorem placeWord_acc : (placeWord w s).acc = s.acc := rfl
@[simp] theorem placeWord_bs : (placeWord w s).bs = s.bs := rfl
@[simp] theorem placeWord_len : (placeWord w s).len = s.len := rfl
@[simp] theorem placeWord_pos : (placeWord w s).pos = s.pos := rfl
@[simp] theorem placeWord_est : (placeWord w s).est = s.est := rfl
@[simp] theorem placeWord_fault : (placeWord w s).fault = s.fault := rfl
@[simp] theorem placeWord_fcause : (placeWord w s).fcause = s.fcause := rfl
@[simp] theorem placeWord_sig : (placeWord w s).sig = s.sig := rfl
@[simp] theorem placeWord_cmp : (placeWord w s).cmp = s.cmp := rfl
@[simp] theorem placeWord_rst : (placeWord w s).rst = false := rfl
@[simp] theorem placeWord_inputs : (placeWord w s).inputs = .cmd w :: s.inputs := rfl
@[simp] theorem placeWord_sent : (placeWord w s).sent = s.sent := rfl

end placeWordFields

section emitOnTriggerFields

variable (p : Params) (trig : Bool) (k : Fin 2)

@[simp] theorem emitOnTrigger_h1 : (emitOnTrigger p trig k s).h1 = s.h1 := by cases trig <;> rfl
@[simp] theorem emitOnTrigger_h2 : (emitOnTrigger p trig k s).h2 = s.h2 := by cases trig <;> rfl
@[simp] theorem emitOnTrigger_h3 : (emitOnTrigger p trig k s).h3 = s.h3 := by cases trig <;> rfl
@[simp] theorem emitOnTrigger_idx : (emitOnTrigger p trig k s).idx = s.idx := by cases trig <;> rfl
@[simp] theorem emitOnTrigger_win : (emitOnTrigger p trig k s).win = s.win := by cases trig <;> rfl
@[simp] theorem emitOnTrigger_bs : (emitOnTrigger p trig k s).bs = s.bs := by cases trig <;> rfl
@[simp] theorem emitOnTrigger_len : (emitOnTrigger p trig k s).len = s.len := by cases trig <;> rfl
@[simp] theorem emitOnTrigger_pos : (emitOnTrigger p trig k s).pos = s.pos := by cases trig <;> rfl
@[simp] theorem emitOnTrigger_est : (emitOnTrigger p trig k s).est = s.est := by cases trig <;> rfl
@[simp] theorem emitOnTrigger_fault : (emitOnTrigger p trig k s).fault = s.fault := by cases trig <;> rfl
@[simp] theorem emitOnTrigger_fcause : (emitOnTrigger p trig k s).fcause = s.fcause := by cases trig <;> rfl
@[simp] theorem emitOnTrigger_cmp : (emitOnTrigger p trig k s).cmp = s.cmp := by cases trig <;> rfl
@[simp] theorem emitOnTrigger_rst : (emitOnTrigger p trig k s).rst = s.rst := by cases trig <;> rfl
@[simp] theorem emitOnTrigger_inputs : (emitOnTrigger p trig k s).inputs = s.inputs := by cases trig <;> rfl
@[simp] theorem emitOnTrigger_sent : (emitOnTrigger p trig k s).sent = s.sent := by cases trig <;> rfl

@[simp] theorem emitOnTrigger_acc :
    (emitOnTrigger p trig k s).acc = if trig then s.acc.set k p.digestSeed else s.acc := by cases trig <;> rfl

@[simp] theorem emitOnTrigger_sig :
    (emitOnTrigger p trig k s).sig = if trig then s.sig.set k (s.sig[k] ++ [ch s.acc[k]]) else s.sig := by
  cases trig <;> rfl

end emitOnTriggerFields

end Sys2Proof.Machine
end

