-- ==== Sys2Proof/Laws/Text.lean ====
section
/-! SUPPORT. Characters and the splitting of text. -/

namespace Sys2Proof.Machine

/-- `idx` inverts `ALPHA` (30_encoding.md R94). -/
theorem alphaIndex_alphaChar : ∀ i, alphaIndex (alphaChar i) = some i := by decide

theorem alphaChar_of_alphaIndex (c : Byte) (i : BitVec 6) (h : alphaIndex c = some i) : alphaChar i = c := by
  have : ∀ c : Byte, ∀ i ∈ alphaIndex c, alphaChar i = c := by decide
  exact this c i h

theorem isAlpha_iff (c : Byte) : isAlpha c = true ↔ ∃ i, c = alphaChar i := by
  constructor
  · intro h
    obtain ⟨i, hi⟩ := Option.isSome_iff_exists.mp h
    exact ⟨i, (alphaChar_of_alphaIndex c i hi).symm⟩
  · rintro ⟨i, rfl⟩
    simp [isAlpha, alphaIndex_alphaChar]

/-- `:` is no alphabet character, which is what makes a signature text splittable (30_encoding.md R94). -/
theorem isAlpha_colon : isAlpha colon = false := by decide

theorem isDigit_colon : isDigit colon = false := by decide

theorem ch_eq_alphaChar (v : Word) : ∃ i, ch v = alphaChar i := ⟨_, rfl⟩

theorem splitColon_ne_nil (t : Text) : splitColon t ≠ [] := by
  cases t with
  | nil => simp [splitColon]
  | cons c t => unfold splitColon; split <;> [simp; (split <;> simp)]

theorem splitColon_of_notMem (t : Text) (h : colon ∉ t) : splitColon t = [t] := by
  induction t with
  | nil => rfl
  | cons c t ih =>
    simp only [List.mem_cons, not_or] at h
    simp [splitColon, ih h.2, Ne.symm h.1]

/-- A text without `:` before a `:` is the first piece. -/
theorem splitColon_append (d t : Text) (h : colon ∉ d) : splitColon (d ++ colon :: t) = d :: splitColon t := by
  induction d with
  | nil => simp [splitColon]
  | cons c d ih =>
    simp only [List.mem_cons, not_or] at h
    simp [splitColon, ih h.2, Ne.symm h.1]

/-- No piece holds a `:`. -/
theorem colon_notMem_piece (t : Text) : ∀ p ∈ splitColon t, colon ∉ p := by
  induction t with
  | nil => simp [splitColon]
  | cons c t ih =>
    unfold splitColon
    split
    · simpa using ih
    · rename_i hc
      cases hs : splitColon t with
      | nil => exact absurd hs (splitColon_ne_nil t)
      | cons p rest =>
        rw [hs] at ih
        intro q hq
        rcases List.mem_cons.mp hq with rfl | hq
        · simpa [Ne.symm hc] using ih p (by simp)
        · exact ih q (by simp [hq])

/-- Joining the pieces with `:` gives the text back. -/
theorem intercalate_splitColon (t : Text) : List.intercalate [colon] (splitColon t) = t := by
  induction t with
  | nil => rfl
  | cons c t ih =>
    unfold splitColon
    cases hs : splitColon t with
    | nil => exact absurd hs (splitColon_ne_nil t)
    | cons p rest =>
      rw [hs] at ih
      by_cases hc : c = colon
      · simp [hc, ← ih, List.intercalate]
      · simp only [hc, if_false]
        cases rest with
        | nil => simpa [List.intercalate] using ih
        | cons q rest => simpa [List.intercalate] using ih

/-- Appending character by character is appending the text. -/
theorem foldl_memAppend_eq (t u : Text) : List.foldl (fun (sp : Text) c => sp ++ [c]) u t = u ++ t := by
  induction t generalizing u with
  | nil => simp
  | cons c t ih => simp [ih]

end Sys2Proof.Machine
end

