-- ==== Sys2Proof/Laws/Ops.lean ====
section
/-! SUPPORT. What each shared operation and each command's effect can do, said once: proofs cite these instead of unfolding. -/

namespace Sys2Proof.Machine

open Sys2Proof.Safety

theorem respWord_eq (st : Status) (data : Word) : respWord st data = st.code ++ data := rfl

theorem raiseFault_eq_faulted (f : FaultCode) (s : State) : raiseFault f s = faulted f.code s := rfl

/-- A response with no text. -/
theorem respond_eq_answered (st : Status) (data : Word) (s : State) : respond st data [] s = answered st.code data s := rfl

theorem sumView_advance (byte : Byte) (s : State) :
    sumView (advance byte s)
      = (s.h1 + zext byte - zext s.win[s.idx]) + (s.h2 - s.h1 + 7 * zext byte) + ((s.h3 <<< 5) ^^^ zext byte) := rfl

theorem vector_eq_pair {α : Type} (v : Vector α 2) : v = #v[v[0], v[1]] := by
  ext i hi
  match i, hi with
  | 0, _ => rfl
  | 1, _ => rfl

@[simp] theorem pair_set_zero {α : Type} (v : Vector α 2) (a : α) : v.set 0 a = #v[a, v[1]] := by
  ext i hi
  match i, hi with
  | 0, _ => simp
  | 1, _ => simp

@[simp] theorem pair_set_one {α : Type} (v : Vector α 2) (a : α) : v.set 1 a = #v[v[0], a] := by
  ext i hi
  match i, hi with
  | 0, _ => simp
  | 1, _ => simp

/-- Writing one entry of a pair leaves the other. -/
theorem pair_set_other {α : Type} (v : Vector α 2) (k j : Fin 2) (a : α) (h : j ≠ k) : (v.set k a)[j] = v[j] := by
  simpa using Vector.getElem_set_ne k.isLt j.isLt (fun e => h (Fin.ext e.symm))

theorem pair_set_same {α : Type} (v : Vector α 2) (k : Fin 2) (a : α) : (v.set k a)[k] = a := by simp

/-- `AttemptReset` as one update (42_engine.md R144). -/
theorem attemptReset_eq (p : Params) (s : State) :
    attemptReset p s
      = { s with
          h1 := 0, h2 := 0, h3 := 0, idx := 0, win := Vector.replicate 7 0
          acc := #v[p.digestSeed, p.digestSeed], sig := #v[[], []], pos := 0 } := by
  have hacc : (s.acc.set 0 p.digestSeed).set 1 p.digestSeed = #v[p.digestSeed, p.digestSeed] := by simp
  have hsig : (s.sig.set 0 []).set 1 [] = #v[[], []] := by simp
  rw [← hacc, ← hsig]
  rfl

/-- `ENG.INIT` either answers `E_INVALID_INPUT` or starts an attempt. -/
theorem engInit_cases (p : Params) (len : Word) (s : State) :
    (len = 0 ∧ engInit p len s = answered 1 0 s) ∨
      (len ≠ 0 ∧ engInit p len s
        = answered 0 (bs0 len) { attemptReset p { s with bs := bs0 len, len := len } with est := .running }) := by
  by_cases h : len = 0
  · exact .inl ⟨h, by rw [engInit, if_pos h]; rfl⟩
  · exact .inr ⟨h, by rw [engInit, if_neg h]; rfl⟩

/-- `ENG.STEP` faults in one of three ways, ends the attempt, or goes on with it. -/
theorem engStep_cases (p : Params) (byte : Byte) (s : State) :
    (s.est = .idle ∧ engStep p byte s = faulted 9 s) ∨
    (s.est = .finalized ∧ engStep p byte s = faulted 10 s) ∨
    (s.est = .running ∧ wouldOverflow p byte s = true ∧ engStep p byte s = faulted 11 s) ∨
    (s.est = .running ∧ wouldOverflow p byte s = false ∧ s.pos + 1 = s.len ∧
      engStep p byte s = endOfAttempt p { s with pos := s.pos + 1 }) ∨
    (s.est = .running ∧ wouldOverflow p byte s = false ∧ s.pos + 1 ≠ s.len ∧
      engStep p byte s = midAttempt p byte { s with pos := s.pos + 1 }) := by
  cases he : s.est with
  | idle => exact .inl ⟨rfl, by simp [engStep, he]; rfl⟩
  | finalized => exact .inr (.inl ⟨rfl, by simp [engStep, he]; rfl⟩)
  | running =>
    refine .inr (.inr ?_)
    cases ho : wouldOverflow p byte s with
    | true => exact .inl ⟨rfl, rfl, by simp [engStep, he, ho]; rfl⟩
    | false =>
      by_cases hl : s.pos + 1 = s.len
      · exact .inr (.inl ⟨rfl, rfl, hl, by simp only [engStep, he, ho, hl, if_true, Bool.false_eq_true, if_false]⟩)
      · exact .inr (.inr ⟨rfl, rfl, hl, by simp only [engStep, he, ho, hl, Bool.false_eq_true, if_false]⟩)

/-- The end of an attempt finalises or restarts at half the block size. -/
theorem endOfAttempt_cases (p : Params) (s : State) :
    ((31 ≤ s.sig[0].length ∨ s.bs = 3) ∧
      endOfAttempt p s = answered 0 2 { emit 1 (emit 0 s) with est := .finalized }) ∨
    (s.sig[0].length < 31 ∧ s.bs ≠ 3 ∧
      endOfAttempt p s = answered 0 1 (attemptReset p { emit 1 (emit 0 s) with bs := s.bs / 2 })) := by
  have hlen : (emit 1 (emit 0 s)).sig[0].length = s.sig[0].length + 1 := by simp
  by_cases h : Config.sigHalf ≤ (emit 1 (emit 0 s)).sig[0].length ∨ (emit 1 (emit 0 s)).bs = Config.minBs
  · refine .inl ⟨?_, by simp only [endOfAttempt, h, if_true]; rfl⟩
    rcases h with h | h
    · rw [hlen] at h; simp only [Config.sigHalf] at h; omega
    · exact .inr h
  · refine .inr ⟨?_, ?_, by simp only [endOfAttempt, h, if_false]; rfl⟩
    · rw [hlen] at h; simp only [Config.sigHalf, not_or] at h; omega
    · exact fun e => h (.inr e)

/-- `CMP.PUSH` faults when the buffer is full, and appends otherwise. -/
theorem cmpPush_cases (p : Params) (x : Fin 2) (char : Byte) (s : State) :
    (p.cmpCap ≤ s.cmp[x].length ∧ cmpPush p x char s = faulted 11 s) ∨
    (s.cmp[x].length < p.cmpCap ∧
      cmpPush p x char s = answered 0 (u32 (s.cmp[x].length + 1)) { s with cmp := s.cmp.set x (s.cmp[x] ++ [char]) }) := by
  by_cases h : p.cmpCap ≤ s.cmp[x].length
  · exact .inl ⟨h, by simp only [cmpPush, h, if_true]; rfl⟩
  · refine .inr ⟨by omega, ?_⟩
    have hl : ((setCmp x (memAppend s.cmp[x] char) s).cmp[x]).length = s.cmp[x].length + 1 := by simp [memAppend]
    simp only [cmpPush, h, if_false, hl]
    rfl

/-- `CMP.LDF` faults with no engine or too long a text, and replaces the buffer otherwise. -/
theorem cmpLdf_cases (p : Params) (x : Fin 2) (s : State) :
    (s.est = .idle ∧ cmpLdf p x s = faulted 9 s) ∨
    (s.est ≠ .idle ∧ p.cmpCap < (formatText s).length ∧ cmpLdf p x s = faulted 11 s) ∨
    (s.est ≠ .idle ∧ (formatText s).length ≤ p.cmpCap ∧
      cmpLdf p x s = answered 0 (u32 (formatText s).length) { s with cmp := s.cmp.set x (formatText s) }) := by
  by_cases he : s.est = .idle
  · exact .inl ⟨he, by simp only [cmpLdf, he, if_true]; rfl⟩
  · by_cases h : p.cmpCap < (formatText s).length
    · exact .inr (.inl ⟨he, h, by simp only [cmpLdf, he, h, if_false, if_true]; rfl⟩)
    · refine .inr (.inr ⟨he, by omega, ?_⟩)
      have hf : (formatText s).foldl memAppend (memClear s.cmp[x]) = formatText s := by
        exact foldl_memAppend_eq (formatText s) []
      simp only [cmpLdf, he, h, if_false, hf]
      rfl

/-- `ENG.FMT` faults with no engine, and sends the text otherwise. -/
theorem engFmt_cases (s : State) :
    (s.est = .idle ∧ engFmt s = faulted 9 s) ∨
    (s.est ≠ .idle ∧ engFmt s
      = { s with sent := (formatText s).map .txt ++ [response 0 (u32 (formatText s).length)] }) := by
  by_cases he : s.est = .idle
  · exact .inl ⟨he, by simp only [engFmt, he, if_true]; rfl⟩
  · exact .inr ⟨he, by simp only [engFmt, he, if_false]; rfl⟩

/-- `RDREG` answers the view of a named register and faults on a reserved number. -/
theorem execRdreg_cases (reg : BitVec 8) (s : State) :
    (Reg.ofNumber reg = none ∧ execRdreg reg s = .next (faulted 8 s)) ∨
    (∃ r, Reg.ofNumber reg = some r ∧ execRdreg reg s = .next (answered 0 (r.view s) s)) := by
  cases h : Reg.ofNumber reg with
  | none => exact .inl ⟨rfl, by simp only [execRdreg, h]; rfl⟩
  | some r => exact .inr ⟨r, rfl, by simp only [execRdreg, h]; rfl⟩

/-- The register map names exactly the numbers 44_system.md R221 lists. -/
theorem ofNumber_isSome_iff : ∀ n, (Reg.ofNumber n).isSome = regNumberListed n := by decide

/-- Every command ends in a next state. -/
theorem exec_is_next (i : Instr) (s : State) : ∃ t, exec i s = .next t := by
  cases i with
  | rdreg reg => rcases execRdreg_cases reg s with ⟨-, h⟩ | ⟨r, -, h⟩ <;> exact ⟨_, h⟩
  | _ => exact ⟨_, rfl⟩

/-- While `rst` is asserted a step is `fetchHeld`. -/
theorem step_of_held (s : State) (hr : s.rst = true) : step s = .next (fetchHeld Config.params s) := by
  simp only [step, fetch, hr, if_true]

/-- While `rst` is not asserted a step takes the host's next action by `fetchReady`. -/
theorem fetch_of_ready (p : Params) (s : State) (hr : s.rst = false) : fetch p s = fetchReady p s := by
  simp only [fetch, hr, Bool.false_eq_true, if_false]

/-- `fetchHeld` leaves the reset state, with `rst` released exactly by the host's release. -/
theorem fetchHeld_cases (p : Params) (s : State) :
    (∃ rest, fetchHeld p s = { State.resetWith p with rst := true, inputs := rest }) ∨
    (∃ rest, s.inputs = .release :: rest ∧ fetchHeld p s = { State.resetWith p with inputs := rest }) := by
  match h : s.inputs with
  | [] => exact .inl ⟨[], by simp only [fetchHeld, h, assertReset]; rfl⟩
  | .cmd _ :: rest => exact .inl ⟨rest, by simp only [fetchHeld, h]; rfl⟩
  | .rst :: rest => exact .inl ⟨rest, by simp only [fetchHeld, h]; rfl⟩
  | .rstDuring _ _ :: rest => exact .inl ⟨rest, by simp only [fetchHeld, h]; rfl⟩
  | .release :: rest => exact .inr ⟨rest, rfl, by simp only [fetchHeld, h]; rfl⟩

/-- A step is one of these, by the level of `rst` and the host's next action: quiet, a command, an illegal word, a step that
leaves `rst` asserted, a release. -/
theorem step_cases (s : State) :
    (∃ rest, s.rst = false ∧ ((s.inputs = [] ∧ rest = []) ∨ s.inputs = .release :: rest) ∧
      step s = .next { s with inputs := rest, sent := [] }) ∨
    (∃ w rest i, s.rst = false ∧ s.inputs = .cmd w :: rest ∧ decode w = .ok i ∧
      step s = exec i { s with inputs := rest }) ∨
    (∃ w rest e, s.rst = false ∧ s.inputs = .cmd w :: rest ∧ decode w = .error e ∧
      step s = .next (faulted 8 { s with inputs := rest })) ∨
    (∃ (rest : List HostInput) (text : Text), (s.rst = true ∨ s.inputs = .rst :: rest ∨ ∃ w n, s.inputs = .rstDuring w n :: rest) ∧
      step s = .next { State.reset with rst := true, inputs := rest, sent := text.map .txt }) ∨
    (∃ rest, s.rst = true ∧ s.inputs = .release :: rest ∧ step s = .next { State.reset with inputs := rest }) := by
  by_cases hr : s.rst = true
  · rw [step_of_held s hr]
    rcases fetchHeld_cases Config.params s with ⟨rest, h⟩ | ⟨rest, hi, h⟩
    · exact .inr (.inr (.inr (.inl ⟨rest, [], .inl hr, by rw [h]; rfl⟩)))
    · exact .inr (.inr (.inr (.inr ⟨rest, hr, hi, by rw [h]; rfl⟩)))
  · rw [Bool.not_eq_true] at hr
    have hf := fetch_of_ready Config.params s hr
    match h : s.inputs with
    | [] => exact .inl ⟨[], hr, .inl ⟨rfl, rfl⟩, by simp only [step, hf, fetchReady, h]⟩
    | .cmd w :: rest =>
      refine .inr ?_
      cases hd : decode w with
      | ok i => exact .inl ⟨w, rest, i, hr, rfl, hd, by simp only [step, hf, fetchReady, h, takeWord, hd]⟩
      | error e => exact .inr (.inl ⟨w, rest, e, hr, rfl, hd, by simp only [step, hf, fetchReady, h, takeWord, hd]; rfl⟩)
    | .rst :: rest =>
      exact .inr (.inr (.inr (.inl ⟨rest, [], .inr (.inl rfl), by simp only [step, hf, fetchReady, h]; rfl⟩)))
    | .rstDuring w n :: rest =>
      exact .inr (.inr (.inr (.inl ⟨rest, _, .inr (.inr ⟨w, n, rfl⟩), by simp only [step, hf, fetchReady, h]; rfl⟩)))
    | .release :: rest => exact .inl ⟨rest, hr, .inr rfl, by simp only [step, hf, fetchReady, h]⟩

/-- Every step ends in a next state. -/
theorem step_is_next (s : State) : ∃ t, step s = .next t := by
  rcases step_cases s with ⟨_, -, -, h⟩ | ⟨_, _, i, -, -, -, h⟩ | ⟨_, _, _, -, -, -, h⟩ | ⟨_, _, -, h⟩ | ⟨_, -, -, h⟩
  · exact ⟨_, h⟩
  · rw [h]; exact exec_is_next i _
  · exact ⟨_, h⟩
  · exact ⟨_, h⟩
  · exact ⟨_, h⟩

/-- One command performed before the others. -/
theorem perform_cons (i : Instr) (rest : List Instr) (s t : State) (h : exec i s = .next t) :
    perform (i :: rest) s = perform rest t := by simp only [perform, h]

theorem perform_append (is js : List Instr) (s t : State) (h : perform is s = .next t) :
    perform (is ++ js) s = perform js t := by
  induction is generalizing s with
  | nil => simp only [perform, Host.Outcome.next.injEq] at h; simp [h]
  | cons i is ih =>
    obtain ⟨u, hu⟩ := exec_is_next i s
    rw [perform_cons i is s u hu] at h
    rw [List.cons_append, perform_cons i _ s u hu, ih u h]

end Sys2Proof.Machine
end

