-- ==== Sys2Proof/Laws/PerInstr.lean ====
section
/-! SUPPORT. The family of statements made for every command: its word agrees with its row of the opcode table
(30_encoding.md R93). -/

namespace Sys2Proof.Laws.TableRow

/-- The command's word carries its row's `match` value in the bits of its row's `mask`, and the row is in the table. -/
def Statement (i : Instr) : Prop :=
  encode i &&& i.tableMask = i.tableMatch ∧ (i.tableMatch, i.tableMask) ∈ opcodeRows

theorem nop : Statement .nop := by unfold Statement; decide

theorem rdreg (reg : BitVec 8) : Statement (.rdreg reg) := by revert reg; unfold Statement; decide

theorem rollRst : Statement .rollRst := by unfold Statement; decide

theorem rollAdv (byte : Byte) : Statement (.rollAdv byte) := by revert byte; unfold Statement; decide

theorem digRst (k : Fin 2) : Statement (.digRst k) := by revert k; unfold Statement; decide

theorem digUpd (k : Fin 2) (byte : Byte) : Statement (.digUpd k byte) := by revert k byte; unfold Statement; decide

theorem digVal (k : Fin 2) : Statement (.digVal k) := by revert k; unfold Statement; decide

theorem engInit (len : Word) : Statement (.engInit len) := by
  refine ⟨?_, by simp [Instr.tableMatch, Instr.tableMask, opcodeRows]⟩
  have h : (0x30#8 ++ len) &&& (0xFF#8 ++ 0#32) = (0x30#8 &&& 0xFF#8) ++ (len &&& 0#32) := BitVec.and_append
  rw [BitVec.and_zero] at h
  exact h

theorem engStep (byte : Byte) : Statement (.engStep byte) := by revert byte; unfold Statement; decide

theorem engFmt : Statement .engFmt := by unfold Statement; decide

theorem cmpClr (x : Fin 2) : Statement (.cmpClr x) := by revert x; unfold Statement; decide

theorem cmpPush (x : Fin 2) (char : Byte) : Statement (.cmpPush x char) := by revert x char; unfold Statement; decide

theorem cmpLdf (x : Fin 2) : Statement (.cmpLdf x) := by revert x; unfold Statement; decide

theorem cmpRun : Statement .cmpRun := by unfold Statement; decide

end Sys2Proof.Laws.TableRow
end

