-- ==== Sys2Proof/Laws/Rolling.lean ====
section
/-! SUPPORT. The window as a history: what `recentByte` reads after an advance (10_state.md R26, 40_rolling.md R102). -/

namespace Sys2Proof.Machine

open Sys2Proof.Safety

/-- `recentByte` reads only the index and the window. -/
theorem recentByte_congr (s t : State) (hi : t.idx = s.idx) (hw : t.win = s.win) : recentByte t = recentByte s := by
  funext j
  simp [recentByte, hi, hw]

/-- The newest byte is the one just advanced. -/
theorem recentByte_advance_one (b : Byte) (s : State) : recentByte (advance b s) 1 = b := by
  have h : ((s.idx + 1).val + 7 - 1) % 7 = s.idx.val := by
    have := s.idx.isLt
    rw [Fin.val_add]
    simp
    omega
  simp only [recentByte, advance_idx, advance_win, h]
  exact Vector.getElem_set_self _

/-- Every byte of before is one place older. -/
theorem recentByte_advance_succ (b : Byte) (s : State) (j : Nat) (h1 : 1 ≤ j) (h6 : j ≤ 6) :
    recentByte (advance b s) (j + 1) = recentByte s j := by
  have hi := s.idx.isLt
  have e : ((s.idx + 1).val + 7 - (j + 1)) % 7 = (s.idx.val + 7 - j) % 7 := by
    rw [Fin.val_add]
    simp
    omega
  have n : s.idx.val ≠ (s.idx.val + 7 - j) % 7 := by omega
  simp only [recentByte, advance_idx, advance_win, e]
  exact Vector.getElem_set_ne _ _ n

/-- The oldest byte stands in the slot the next advance overwrites. -/
theorem recentByte_seven (s : State) : recentByte s 7 = s.win[s.idx] := by
  have h : (s.idx.val + 7 - 7) % 7 = s.idx.val := by
    have := s.idx.isLt
    omega
  simp only [recentByte, h]
  rfl

/-- A zeroed unit meets the rolling identities. -/
theorem rollInv_of_zero (s : State) (h1 : s.h1 = 0) (h2 : s.h2 = 0) (h3 : s.h3 = 0) (hw : s.win = Vector.replicate 7 0) :
    RollInv s := by
  have h : recentByte s = fun _ => 0 := by
    funext j
    simp [recentByte, hw]
  refine ⟨?_, ?_, ?_⟩ <;> simp only [h1, h2, h3, h] <;> decide

end Sys2Proof.Machine
end

