-- ==== Sys2Proof/Laws/Spaces.lean ====
section
/-! SUPPORT. The character spaces keep their form: within their capacities (20_memory.md R75), under every operation that
writes one. -/

namespace Sys2Proof.Machine

/-- `Memory.wf` as a statement. -/
theorem memory_wf_iff (p : Params) (s : State) :
    Memory.wf p s = true ↔ s.sig[0].length ≤ p.sigCap ∧ s.sig[1].length ≤ p.sigCap
      ∧ s.cmp[0].length ≤ p.cmpCap ∧ s.cmp[1].length ≤ p.cmpCap := by
  simp [Memory.wf, and_assoc]

theorem reset_memory_wf : Memory.wf Config.params State.reset = true := by
  simp [memory_wf_iff, State.reset, State.resetWith]

/-- `Memory.wf` reads only the four spaces. -/
theorem memory_wf_congr (p : Params) (s t : State) (hs : t.sig = s.sig) (hc : t.cmp = s.cmp) :
    Memory.wf p t = Memory.wf p s := by simp [Memory.wf, hs, hc]

theorem memRead_memAppend (t : Text) (c : Byte) (i : Nat) :
    memRead (memAppend t c) i = if i = t.length then some c else memRead t i := by
  rcases Nat.lt_trichotomy i t.length with h | h | h
  · simp [memRead, memAppend, List.getElem?_append_left h, Nat.ne_of_lt h]
  · simp [memRead, memAppend, h]
  · rw [if_neg (by omega)]
    simp [memRead, memAppend, h, List.getElem?_eq_none (Nat.le_of_lt h)]

theorem memRead_memClear (t : Text) (i : Nat) : memRead (memClear t) i = none := rfl

theorem setSig_keeps_wf (p : Params) (k : Fin 2) (t : Text) (s : State) (h : Memory.wf p s = true)
    (ht : t.length ≤ p.sigCap) : Memory.wf p (setSig k t s) = true := by
  rw [memory_wf_iff] at *
  match k with
  | 0 => simpa [ht] using ⟨h.2.1, h.2.2⟩
  | 1 => simpa [ht] using ⟨h.1, h.2.2⟩

theorem setCmp_keeps_wf (p : Params) (x : Fin 2) (t : Text) (s : State) (h : Memory.wf p s = true)
    (ht : t.length ≤ p.cmpCap) : Memory.wf p (setCmp x t s) = true := by
  rw [memory_wf_iff] at *
  match x with
  | 0 => simpa [ht] using ⟨h.1, h.2.1, h.2.2.2⟩
  | 1 => simpa [ht] using ⟨h.1, h.2.1, h.2.2.1⟩

/-- Appending to a half that is not full keeps the form. -/
theorem emit_keeps_wf (p : Params) (k : Fin 2) (s : State) (h : Memory.wf p s = true) (hk : sigFull p k s = false) :
    Memory.wf p (emit k s) = true := by
  refine setSig_keeps_wf p k _ s h ?_
  simp only [sigFull, decide_eq_false_iff_not] at hk
  simp only [memAppend, List.length_append, List.length_singleton]
  omega

theorem attemptReset_keeps_wf (p : Params) (s : State) (h : Memory.wf p s = true) :
    Memory.wf p (attemptReset p s) = true := by
  rw [attemptReset_eq]
  rw [memory_wf_iff] at *
  simpa using h.2.2

theorem cmpPush_keeps_wf (p : Params) (x : Fin 2) (char : Byte) (s : State) (h : Memory.wf p s = true) :
    Memory.wf p (cmpPush p x char s) = true := by
  rcases cmpPush_cases p x char s with ⟨-, he⟩ | ⟨hl, he⟩
  · rw [he]; exact h
  · rw [he]
    exact setCmp_keeps_wf p x (s.cmp[x] ++ [char]) s h (by simpa using hl)

theorem cmpLdf_keeps_wf (p : Params) (x : Fin 2) (s : State) (h : Memory.wf p s = true) :
    Memory.wf p (cmpLdf p x s) = true := by
  rcases cmpLdf_cases p x s with ⟨-, he⟩ | ⟨-, -, he⟩ | ⟨-, hl, he⟩
  · rw [he]; exact h
  · rw [he]; exact h
  · rw [he]
    exact setCmp_keeps_wf p x _ s h hl

end Sys2Proof.Machine
end

