-- ==== Sys2Proof/Tests/Slice0.lean ====
section
/-! SUPPORT. The model's own tests. Expected values come from 95_test_vectors.md (named by its vectors) or are computed by hand
from the cited rule; witnesses show that the hypotheses of each statement of Certificates/Slice0/Obligations.lean can be met,
each clause at a boundary of its range. -/

namespace Sys2Proof.Tests

open Sys2Proof.Machine Sys2Proof.Safety

/-! ### Helpers -/

/-- The state after reset with the defaults of 00_scope.md R6. -/
def base : State := State.resetWith Params.default

/-- What an outcome sent. -/
def sentBy (o : Out) : List Transfer :=
  match o with
  | .next t => t.sent
  | .fault _ => []
  | .refused _ => []

/-- The state an outcome leaves, `s` where there is none. -/
def after (o : Out) (s : State) : State :=
  match o with
  | .next t => t
  | .fault _ => s
  | .refused _ => s

/-- An engine in the middle of an attempt: `BS = 3`, `LEN = 9`, nothing hashed yet. -/
def midway : State := { base with est := .running, bs := 3, len := 9 }

/-- An engine whose next step ends the attempt: `BS = 3`, `LEN = 1`. -/
def lastStep : State := { base with est := .running, bs := 3, len := 1 }

/-- The end state of vector E-2, whose text is `3:n:n`. -/
def finished : State := { base with est := .finalized, bs := 3, len := 1, pos := 1, sig := #v[[0x6E], [0x6E]] }

/-- `SIG_CAP` characters. -/
def fullHalf : Text := List.replicate Config.params.sigCap 0x41

/-- `CMP_CAP` characters. -/
def fullBuffer : Text := List.replicate Config.params.cmpCap 0x41

/-- `3:abc:de`. -/
def textK1a : Text := [0x33, 0x3A, 0x61, 0x62, 0x63, 0x3A, 0x64, 0x65]

/-- `3:abd:xyz`. -/
def textK1b : Text := [0x33, 0x3A, 0x61, 0x62, 0x64, 0x3A, 0x78, 0x79, 0x7A]

theorem sigCap_pos : 0 < Config.params.sigCap := Nat.succ_pos _

theorem cmpCap_pos : 0 < Config.params.cmpCap := Nat.succ_pos _

/-! ### WellFormed: the one ill-formed term -/

/-- 0x05 is a reserved register number (95_test_vectors.md section 2.5). -/
theorem test_wellFormed_refuses_reserved_register : (Instr.rdreg 0x05).wellFormed = false := by decide

/-- The last listed number is accepted and the next one is not (44_system.md R221). -/
theorem test_wellFormed_register_boundary :
    (Instr.rdreg 0x27).wellFormed = true ∧ (Instr.rdreg 0x28).wellFormed = false := by decide

/-! ### Decoding: words written out from 30_encoding.md R80, R82, R84 -/

theorem test_decode_nop : decode (0b00000000#8 ++ 0b00000000000000000000000000000000#32) = .ok .nop := by rfl

theorem test_decode_rdreg :
    decode (0b00000001#8 ++ 0b00000000000000000000000000100011#32) = .ok (.rdreg 0x23) := by rfl

theorem test_decode_rollRst : decode (0b00010000#8 ++ 0b00000000000000000000000000000000#32) = .ok .rollRst := by rfl

theorem test_decode_rollAdv :
    decode (0b00010001#8 ++ 0b00000000000000000000000010000001#32) = .ok (.rollAdv 0x81) := by rfl

theorem test_decode_digRst : decode (0b00100000#8 ++ 0b00000000000000000000000000000001#32) = .ok (.digRst 1) := by rfl

theorem test_decode_digUpd :
    decode (0b00100001#8 ++ 0b00000000000000000000000111000001#32) = .ok (.digUpd 1 0xC1) := by rfl

theorem test_decode_digVal : decode (0b00100010#8 ++ 0b00000000000000000000000000000001#32) = .ok (.digVal 1) := by rfl

theorem test_decode_engInit :
    decode (0b00110000#8 ++ 0b10000000000000000000001011111111#32) = .ok (.engInit 0x800002FF) := by rfl

theorem test_decode_engStep :
    decode (0b00110001#8 ++ 0b00000000000000000000000001101000#32) = .ok (.engStep 0x68) := by rfl

theorem test_decode_engFmt : decode (0b00110010#8 ++ 0b00000000000000000000000000000000#32) = .ok .engFmt := by rfl

theorem test_decode_cmpClr : decode (0b01000000#8 ++ 0b00000000000000000000000000000001#32) = .ok (.cmpClr 1) := by rfl

theorem test_decode_cmpPush :
    decode (0b01000001#8 ++ 0b00000000000000000000000100110011#32) = .ok (.cmpPush 1 0x33) := by rfl

theorem test_decode_cmpLdf : decode (0b01000010#8 ++ 0b00000000000000000000000000000000#32) = .ok (.cmpLdf 0) := by rfl

theorem test_decode_cmpRun : decode (0b01000011#8 ++ 0b00000000000000000000000000000000#32) = .ok .cmpRun := by rfl

/-- Each format with its lowest reserved bit set, and unused opcodes (95_test_vectors.md R-6, D-5, sections 2.4 and 2.5). -/
theorem test_decode_refuses_reserved :
    decode 0x0000000001 = .error (.reservedArgument 0x00) ∧ decode 0x0100000104 = .error (.reservedArgument 0x01)
      ∧ decode 0x2000000002 = .error (.reservedArgument 0x20) ∧ decode 0x2100000200 = .error (.reservedArgument 0x21)
      ∧ decode 0x4300000001 = .error (.reservedArgument 0x43) ∧ decode 0x0500000000 = .error (.reservedOpcode 0x05)
      ∧ decode 0xFF00000000 = .error (.reservedOpcode 0xFF) := by decide

/-- The host's reading of a table row, and its run as the first command after reset: word and response of 95 section 2.4. -/
theorem test_placed_word_runs :
    decodeTableWord 40 0x4100000133 = some (.cmpPush 1 0x33)
      ∧ sentBy (step (State.reset.withFetchWord 40 0x4100000133)) = [response 0 1] := by decide

/-! ### One step per command, on values of 95_test_vectors.md -/

theorem test_nop_answers : sentBy (exec .nop midway) = [response 0 0] := by decide

/-- P1: `RDREG IDX`; section 2.5: a reserved number. -/
theorem test_rdreg :
    sentBy (exec (.rdreg 0x03) { base with idx := 5 }) = [response 0 5]
      ∧ sentBy (exec (.rdreg 0x05) base) = [response 8 0] := by decide

/-- Section 2.5: the listed `STATUS` values. -/
theorem test_status_values :
    statusWord base = 0 ∧ statusWord midway = 5 ∧ statusWord finished = 2
      ∧ statusWord { midway with fault := true, fcause := 11 } = 0xBD
      ∧ statusWord { base with fault := true, fcause := 8 } = 0x88 := by decide

/-- R-5. -/
theorem test_rollRst :
    sumView (after (exec .rollRst { base with h1 := 670, h2 := 2025, h3 := 0xFE74244D, idx := 4 }) base) = 0 := by decide

/-- R-1 rows 2 and 8: the sums, and the byte that leaves the window. -/
theorem test_rollAdv :
    sentBy (exec (.rollAdv 7) { base with h1 := 3, h2 := 21, h3 := 3, idx := 1, win := #v[3, 0, 0, 0, 0, 0, 0] })
        = [response 0 180]
      ∧ sentBy (exec (.rollAdv 200)
          { base with h1 := 465, h2 := 2466, h3 := 0xCEDF9FE1, idx := 0, win := #v[3, 7, 12, 59, 128, 255, 1] })
        = [response 0 0xDBF40CC7] := by decide

/-- R-1 row 7: the index wraps to 0. -/
theorem test_rollAdv_index_wraps : (after (exec (.rollAdv 1) { base with idx := 6 }) base).idx = 0 := by decide

/-- P6: `DIG.RST 1`, on the default seed. -/
theorem test_digRst : (digestReset Params.default 1 { base with acc := #v[1, 2] }).acc = #v[1, 0x28021967] := by decide

/-- D-1: multiply first, XOR second, and the other word untouched. -/
theorem test_digUpd :
    (after (exec (.digUpd 0 0xFF) { base with acc := #v[0xFFFFFFFF, 5] }) base).acc = #v[0xFEFFFE92, 5] := by decide

/-- D-3: after `'b'`, `'c'`. -/
theorem test_digUpd_chain : mulXor 0x04C5B26E 0x63 = 0xF137E349 ∧ ch 0xF137E349 = 0x4A := by decide

theorem test_digVal : sentBy (exec (.digVal 1) { base with acc := #v[1, 2] }) = [response 0 2] := by decide

/-- E-1: both sides of a boundary, and the largest length. -/
theorem test_engInit :
    bs0 1 = 3 ∧ bs0 192 = 3 ∧ bs0 193 = 6 ∧ bs0 767 = 12 ∧ bs0 769 = 24 ∧ bs0 0xFFFFFFFF = 100663296 := by decide

/-- E-1: length 0 is refused. -/
theorem test_engInit_zero : sentBy (exec (.engInit 0) midway) = [response 1 0] := by decide

/-- E-4 step 6, from the state of E-13: both triggers, both appends, both words reset. -/
theorem test_engStep_both_triggers :
    let s := engStep Params.default 0x20
      { midway with
        len := 11, pos := 5, h1 := 532, h2 := 2681, h3 := 0x06B33DEF, idx := 5, win := #v[104, 101, 108, 108, 111, 0, 0]
        acc := #v[0x28021967, 0x210D0329], sig := #v[[0x69, 0x4B], []] }
    s.sent = [response 0 0x300] ∧ s.sig = #v[[0x69, 0x4B, 0x46], [0x72]] ∧ s.acc = #v[0x28021967, 0x28021967]
      ∧ s.pos = 6 := by decide

/-- P4, the restart step at `BS = 6`. -/
theorem test_engStep_restart :
    let s := engStep Params.default 0 { midway with bs := 6, len := 200, pos := 199, acc := #v[0xC0AE3AFD, 0xC0AE3AFD] }
    s.sent = [response 0 1] ∧ s.bs = 3 ∧ s.pos = 0 ∧ s.est = .running ∧ s.sig = #v[[], []] := by decide

/-- E-2. -/
theorem test_engFmt :
    sentBy (exec .engFmt finished) = [.txt 0x33, .txt 0x3A, .txt 0x6E, .txt 0x3A, .txt 0x6E, response 0 5] := by decide

/-- E-11. -/
theorem test_formatText_empty_halves : formatText { midway with bs := 12 } = [0x31, 0x32, 0x3A, 0x3A] := by decide

theorem test_cmpClr : (after (exec (.cmpClr 1) { base with cmp := #v[[1], [2]] }) base).cmp = #v[[1], []] := by decide

/-- Section 2.4, 'Capacity': `CMP_CAP = 4`, the fourth and the fifth push. -/
theorem test_cmpPush_capacity :
    (cmpPush ⟨0, 0, 3⟩ 1 0x33 { base with cmp := #v[[], [0x33, 0x33, 0x33]] }).sent = [response 0 4]
      ∧ (cmpPush ⟨0, 0, 3⟩ 1 0x33 { base with cmp := #v[[], [0x33, 0x33, 0x33, 0x33]] }).sent = [response 11 0] := by
  decide

/-- Section 2.4, 'Capacity': a text of five characters fits in five cells and not in four. -/
theorem test_cmpLdf_capacity :
    (cmpLdf ⟨0, 0, 3⟩ 0 finished).sent = [response 11 0]
      ∧ (cmpLdf ⟨0, 0, 4⟩ 0 finished).cmp = #v[[0x33, 0x3A, 0x6E, 0x3A, 0x6E], []] := by decide

/-- K1. -/
theorem test_cmpRun : sentBy (exec .cmpRun { base with cmp := #v[textK1a, textK1b] }) = [response 0 1] := by decide

/-- K6 (a trailing line end), K9, K11, K20 (no truncation of the number) and K4 (a leading zero). -/
theorem test_cmpRun_refusals :
    compareTexts [0x33, 0x3A, 0x61, 0x3A, 0x62] [0x33, 0x3A, 0x61, 0x3A, 0x62, 0x0A] = (.formatB, 0)
      ∧ compareTexts [0x78] [0x79] = (.formatA, 0)
      ∧ compareTexts [0x33, 0x3A, 0x61, 0x3A, 0x62, 0x3A, 0x63] [0x33, 0x3A, 0x61, 0x3A, 0x62] = (.formatA, 0)
      ∧ compareTexts [0x34, 0x32, 0x39, 0x34, 0x39, 0x36, 0x37, 0x32, 0x39, 0x36, 0x3A, 0x61, 0x3A, 0x62]
          [0x30, 0x3A, 0x61, 0x3A, 0x62] = (.bsize, 0)
      ∧ compareTexts [0x30, 0x33, 0x3A, 0x61, 0x3A, 0x62] [0x33, 0x3A, 0x61, 0x3A, 0x62] = (.ok, 0) := by decide

/-- Edit distances of section 2.4: `kitten` and `sitting`, `abc` and `cab`, `rJJ` and `n`. -/
theorem test_lev :
    lev [0x6B, 0x69, 0x74, 0x74, 0x65, 0x6E] [0x73, 0x69, 0x74, 0x74, 0x69, 0x6E, 0x67] = 3
      ∧ lev [0x61, 0x62, 0x63] [0x63, 0x61, 0x62] = 2 ∧ lev [0x72, 0x4A, 0x4A] [0x6E] = 3 := by decide

/-- A host that asserts `rst` while `ENG.FMT` sends gets two characters and no response (70_reset_and_hazards.md R260). -/
theorem test_reset_abandons_a_text :
    sentBy (step { finished with inputs := [.rstDuring 0x3200000000 2] }) = [.txt 0x33, .txt 0x3A] := by decide

/-- A finished engine under `rst`: `cmd_ready` and `done` are 0 while it is asserted, a word presented is not performed, and
after the release `cmd_ready` is 1 (70_reset_and_hazards.md R260). -/
theorem test_held_reset :
    let t := after (step { finished with inputs := [.rst, .cmd 0x3000000001, .release] }) finished
    let u := after (step t) finished
    let v := after (step u) finished
    cmdReady t = false ∧ donePin t = false ∧ cmdReady u = false ∧ u.est = .idle ∧ u.sent = [] ∧ cmdReady v = true := by
  decide

/-! ### Witnesses: the hypotheses of the statements can be met -/

/-- A word of each format with its lowest reserved bit at 1, for the clauses about reserved bits. -/
theorem test_witness_ReservedBitsFault :
    (opField 0x0000000001 = 0x00 ∧ argField 0x0000000001 &&& 0xFFFFFFFF ≠ 0) ∧
      (opField 0x1000000001 = 0x10 ∧ argField 0x1000000001 &&& 0xFFFFFFFF ≠ 0) ∧
      (opField 0x1100000100 = 0x11 ∧ argField 0x1100000100 &&& 0xFFFFFF00 ≠ 0) ∧
      (opField 0x2000000002 = 0x20 ∧ argField 0x2000000002 &&& 0xFFFFFFFE ≠ 0) ∧
      (opField 0x2100000200 = 0x21 ∧ argField 0x2100000200 &&& 0xFFFFFE00 ≠ 0) ∧
      (opField 0x2200000002 = 0x22 ∧ argField 0x2200000002 &&& 0xFFFFFFFE ≠ 0) ∧
      (opField 0x3200000001 = 0x32 ∧ argField 0x3200000001 &&& 0xFFFFFFFF ≠ 0) ∧
      (opField 0x4000000002 = 0x40 ∧ argField 0x4000000002 &&& 0xFFFFFFFE ≠ 0) ∧
      (opField 0x4100000200 = 0x41 ∧ argField 0x4100000200 &&& 0xFFFFFE00 ≠ 0) ∧
      (opField 0x4200000002 = 0x42 ∧ argField 0x4200000002 &&& 0xFFFFFFFE ≠ 0) ∧
      (opField 0x4300000001 = 0x43 ∧ argField 0x4300000001 &&& 0xFFFFFFFF ≠ 0) := by decide

theorem test_witness_EncodeInvertsDecode : decode 0x30FFFFFFFF = .ok (.engInit 4294967295) := by decide

theorem test_witness_DecodeIsMatchAndMask :
    decode 0x11000000FF = .ok (.rollAdv 255)
      ∧ (0x1100000000#40, 0xFFFFFFFF00#40) ∈ opcodeRows ∧ 0x11000000FF#40 &&& 0xFFFFFFFF00#40 = 0x1100000000#40 := by decide

theorem test_witness_StepPerformsDecodedCommand :
    { base with inputs := [.cmd 0x4100000133] }.rst = false
      ∧ { base with inputs := [.cmd 0x4100000133] }.inputs = .cmd 0x4100000133 :: [] ∧ decode 0x4100000133 = .ok (.cmpPush 1 0x33) := by decide

theorem test_witness_PlacedWordIsPerformed : decodeTableWord 40 0x21000001FF = some (.digUpd 1 0xFF) := by decide

theorem test_witness_IllegalWordFaults :
    { base with inputs := [.cmd 0x1100000100, .rst] }.rst = false
      ∧ { base with inputs := [.cmd 0x1100000100, .rst] }.inputs = .cmd 0x1100000100 :: [.rst] ∧ ∀ row ∈ opcodeRows, 0x1100000100#40 &&& row.2 ≠ row.1 := by
  exact ⟨rfl, rfl, by simp [opcodeRows]⟩

/-- Both clauses, the second with no text out, part of it, and more than there is. -/
theorem test_witness_RstRestoresResetState :
    { midway with inputs := [.rst] }.inputs = .rst :: []
      ∧ ∀ n ∈ [0, 2, 99], { finished with inputs := [.rstDuring 0x3200000000 n] }.inputs = .rstDuring 0x3200000000 n :: [] :=
  ⟨rfl, fun _ _ => rfl⟩

theorem test_witness_WaitingChangesNothing : base.rst = false ∧ base.inputs = [] := by decide

/-- The boundaries of each reserved range of register numbers. -/
theorem test_witness_RdregReservedNumberFaults :
    ∀ n ∈ [5#8, 7#8, 15#8, 18#8, 31#8, 40#8, 255#8],
      (5 ≤ n.toNat ∧ n.toNat ≤ 7) ∨ n.toNat = 15 ∨ (18 ≤ n.toNat ∧ n.toNat ≤ 31) ∨ 40 ≤ n.toNat := by decide

/-- The steady state of R-2: seven bytes 0xFF, the maxima of `H1` and `H2`. -/
def steady : State :=
  { base with h1 := 1785, h2 := 7140, h3 := 0x318C631F, idx := 3, win := #v[255, 255, 255, 255, 255, 255, 255] }

theorem test_witness_StepKeepsRollingIdentities :
    RollInv { steady with inputs := [.cmd 0x1100000080] }
      ∧ ∃ t, step { steady with inputs := [.cmd 0x1100000080] } = .next t := by
  refine ⟨?_, step_is_next _⟩
  unfold RollInv
  decide

theorem test_witness_SevenAdvancesForgetThePast :
    RollInv base ∧ RollInv steady ∧ 7 ≤ [1#8, 2#8, 3#8, 4#8, 5#8, 6#8, 7#8].length := by
  unfold RollInv
  decide

/-- Both clauses, and the lengths on both sides of the first boundary and the last. -/
theorem test_witness_EngInitStartsAnAttempt : (0 : Word) = 0 ∧ ∀ len ∈ [1#32, 192#32, 193#32, 4294967295#32], len ≠ 0 := by
  simp

/-- `c = 0`, so no trigger; then `c = 5`, so both triggers, with room for a character on each half. -/
theorem test_witness_EngStepMidAttempt :
    (midway.est = .running ∧ midway.bs ≠ 0 ∧ midway.pos + 1 ≠ midway.len) ∧
      (((5#32).toNat : Int) % midway.bs.toNat = (midway.bs.toNat : Int) - 1 ∧
        ((5#32).toNat : Int) % (2 * midway.bs.toNat) = 2 * (midway.bs.toNat : Int) - 1 ∧
        sumView (advance 0 { midway with h2 := 5 }) = 5) ∧
      midway.sig[0].length < Config.params.sigCap ∧ midway.sig[1].length < Config.params.sigCap := by
  exact ⟨by decide, by decide, sigCap_pos, sigCap_pos⟩

/-- Finalising at `BS = 3`, and restarting at `BS = 6`. -/
theorem test_witness_EngStepEndsAttempt :
    (lastStep.est = .running ∧ lastStep.pos + 1 = lastStep.len) ∧
      lastStep.sig[0].length < Config.params.sigCap ∧ lastStep.sig[1].length < Config.params.sigCap ∧
      (32 ≤ lastStep.sig[0].length + 1 ∨ lastStep.bs = 3) ∧
      ¬ (32 ≤ { lastStep with bs := 6 }.sig[0].length + 1 ∨ { lastStep with bs := 6 }.bs = 3) := by
  exact ⟨by decide, sigCap_pos, sigCap_pos, by decide, by decide⟩

/-- Finalising by the length of the first half, with any capacity that admits 32 characters. -/
theorem test_witness_EngStepEndsAttempt_by_length (h : 32 ≤ Config.params.sigCap) :
    { lastStep with bs := 6, sig := #v[List.replicate 31 0x41, []] }.sig[0].length < Config.params.sigCap ∧
      32 ≤ { lastStep with bs := 6, sig := #v[List.replicate 31 0x41, []] }.sig[0].length + 1 := by
  exact ⟨by simp; omega, by decide⟩

theorem test_witness_StepAfterFinalisationFaults : finished.est = .finalized := by decide

theorem test_witness_NoEngineFaults :
    base.est = .idle ∧ (∀ b, Instr.nop ≠ .engStep b) ∧ Instr.nop ≠ .engFmt ∧ ∀ x, Instr.nop ≠ .cmpLdf x := by
  exact ⟨by decide, nofun, nofun, nofun⟩

/-- All four ways: at the end either half full, in the middle either half full under its trigger. -/
theorem test_witness_StepIntoFullHalfFaults :
    (lastStep.est = .running ∧ lastStep.pos + 1 = lastStep.len ∧
      Config.params.sigCap ≤ { lastStep with sig := #v[fullHalf, []] }.sig[0].length ∧
      Config.params.sigCap ≤ { lastStep with sig := #v[[], fullHalf] }.sig[1].length) ∧
    (midway.est = .running ∧ midway.pos + 1 ≠ midway.len ∧ sumView (advance 0 { midway with h2 := 5 }) = 5 ∧
      ((5#32).toNat : Int) % midway.bs.toNat = (midway.bs.toNat : Int) - 1 ∧
      ((5#32).toNat : Int) % (2 * midway.bs.toNat) = 2 * (midway.bs.toNat : Int) - 1 ∧
      Config.params.sigCap ≤ { midway with sig := #v[fullHalf, []] }.sig[0].length ∧
      Config.params.sigCap ≤ { midway with sig := #v[[], fullHalf] }.sig[1].length) := by
  exact ⟨⟨by decide, by decide, by simp [fullHalf], by simp [fullHalf]⟩, by decide, by decide, by decide, by decide,
    by decide, by simp [fullHalf], by simp [fullHalf]⟩

theorem test_witness_LastByteIsIgnored : lastStep.pos + 1 = lastStep.len ∧ lastStep.est = .running := by decide

theorem test_witness_StepReportsAreTheFive : ∃ t, exec (.engStep 0) lastStep = .next t := exec_is_next _ _

theorem test_witness_EngFmtSendsTheText : base.est = .idle ∧ midway.est ≠ .idle ∧ finished.est ≠ .idle := by decide

theorem test_witness_DecSpellsTheNumber : dec 0 = [0x30] ∧ 1 < (dec 10).length := by decide

theorem test_witness_AlphabetIsTheSixtyFour : alphaChar 0 = 0x41 ∧ alphaChar 63 = 0x2F ∧ alphaIndex 0x2B = some 62 := by
  decide

/-- An idle, a running and a finalised engine that meet the invariant, each with a step. -/
theorem test_witness_StepKeepsEngineInvariants :
    EngInv base ∧ EngInv midway ∧ EngInv finished ∧ ∀ s ∈ [base, midway, finished], ∃ t, step s = .next t := by
  refine ⟨?_, ?_, ?_, fun s _ => step_is_next s⟩
  · exact ⟨rfl, rfl, rfl, rfl, rfl⟩
  · exact ⟨⟨0, by decide⟩, by decide⟩
  · exact ⟨⟨0, by decide⟩, by decide⟩

theorem test_witness_OnlyInitAndStepWriteTheEngine :
    (∀ len, Instr.engFmt ≠ .engInit len) ∧ (∀ b, Instr.engFmt ≠ .engStep b) ∧ ∃ t, exec .engFmt midway = .next t := by
  exact ⟨nofun, nofun, exec_is_next _ _⟩

/-- A command after which the engine is idle, one after which it is running, one after which it is finalised. -/
theorem test_witness_EngineTransitionsAreTheListed :
    (∃ t, exec .nop base = .next t ∧ t.est = .idle) ∧ (∃ t, exec (.engInit 1) base = .next t ∧ t.est = .running) ∧
      ∃ t, exec .nop finished = .next t ∧ t.est = .finalized := by
  exact ⟨⟨_, rfl, rfl⟩, ⟨_, rfl, rfl⟩, ⟨_, rfl, rfl⟩⟩

theorem test_witness_FinalizedEngineIsImmutable :
    finished.est = .finalized ∧ (∀ len, Instr.cmpRun ≠ .engInit len) ∧ Instr.cmpRun ≠ .rollRst
      ∧ (∀ b, Instr.cmpRun ≠ .rollAdv b) ∧ (∀ k, Instr.cmpRun ≠ .digRst k) ∧ (∀ k b, Instr.cmpRun ≠ .digUpd k b)
      ∧ ∃ t, exec .cmpRun finished = .next t := by
  exact ⟨by decide, nofun, nofun, nofun, nofun, nofun, exec_is_next _ _⟩

/-- The shortest hash, with any capacity. -/
theorem test_witness_HashingTerminates :
    (1 : Word) ≠ 0 ∧ 0 ≤ 25 ∧ (1 : Word).toNat ≤ 192 * 2 ^ 0 ∧ (1 : Word).toNat ≤ Config.params.sigCap ∧
      (0 + 1) * (1 : Word).toNat ≤ [0x41#8].length := by
  exact ⟨by decide, by decide, by decide, sigCap_pos, by decide⟩

theorem test_witness_HashDependsOnlyOnInput : (11 : Word) ≠ 0 := by decide

/-- A buffer with room and a full one. -/
theorem test_witness_CmpPushAppendsUnlessFull :
    base.cmp[0].length < Config.params.cmpCap ∧
      Config.params.cmpCap ≤ { base with cmp := #v[fullBuffer, []] }.cmp[0].length := by
  exact ⟨cmpCap_pos, by simp [fullBuffer]⟩

/-- No engine; an engine whose text cannot fit; and, with any capacity of 5 characters or more, one whose text fits (with a
capacity below 3 no text of any engine fits). -/
theorem test_witness_CmpLdfCopiesTheText :
    base.est = .idle ∧ midway.est ≠ .idle ∧
      Config.params.cmpCap < (formatText { midway with sig := #v[fullBuffer, []] }).length ∧
      (5 ≤ Config.params.cmpCap → finished.est ≠ .idle ∧ (formatText finished).length ≤ Config.params.cmpCap) := by
  refine ⟨by decide, by decide, ?_, fun h => ⟨by decide, ?_⟩⟩
  · simp [formatText, fullBuffer]; omega
  · have hl : (formatText finished).length = 5 := by decide
    omega

theorem test_signature_K1a : Signature textK1a [0x33] [0x61, 0x62, 0x63] [0x64, 0x65] := by
  refine ⟨⟨by decide, by decide⟩, ⟨by decide, ?_⟩, ⟨by decide, ?_⟩, by decide⟩ <;>
    intro c hc <;> exact (isAlpha_iff c).mp (by revert c; decide)

theorem test_signature_K1b : Signature textK1b [0x33] [0x61, 0x62, 0x64] [0x78, 0x79, 0x7A] := by
  refine ⟨⟨by decide, by decide⟩, ⟨by decide, ?_⟩, ⟨by decide, ?_⟩, by decide⟩ <;>
    intro c hc <;> exact (isAlpha_iff c).mp (by revert c; decide)

/-- The empty text matches no signature, for want of a digit. -/
theorem test_not_grammatical_empty : ¬ Grammatical [] := by
  rintro ⟨d, r1, r2, ⟨hd, -⟩, -, -, h⟩
  cases d with
  | nil => exact hd rfl
  | cons c d => simp at h

/-- The first operand malformed; then the second alone; then both well formed with equal numbers and with different ones. -/
theorem test_witness_CmpRunAnswersTheComparison :
    ¬ Grammatical base.cmp[0] ∧
      (Grammatical { base with cmp := #v[textK1a, []] }.cmp[0] ∧
        ¬ Grammatical { base with cmp := #v[textK1a, []] }.cmp[1]) ∧
      (Signature { base with cmp := #v[textK1a, textK1b] }.cmp[0] [0x33] [0x61, 0x62, 0x63] [0x64, 0x65] ∧
        Signature { base with cmp := #v[textK1a, textK1b] }.cmp[1] [0x33] [0x61, 0x62, 0x64] [0x78, 0x79, 0x7A] ∧
        decValue [0x33] = decValue [0x33] ∧ decValue [0x33] ≠ decValue [0x36]) := by
  exact ⟨test_not_grammatical_empty, ⟨⟨_, _, _, test_signature_K1a⟩, test_not_grammatical_empty⟩, test_signature_K1a,
    test_signature_K1b, rfl, by decide⟩

/-- A well-formed operand of another block size, `6:a:b`. -/
theorem test_witness_CmpRunAnswersTheComparison_bsize : Signature [0x36, 0x3A, 0x61, 0x3A, 0x62] [0x36] [0x61] [0x62] := by
  refine ⟨⟨by decide, by decide⟩, ⟨by decide, ?_⟩, ⟨by decide, ?_⟩, by decide⟩ <;>
    intro c hc <;> exact (isAlpha_iff c).mp (by revert c; decide)

theorem test_witness_CmpRunReadsOnlyItsOperands : base.cmp = midway.cmp ∧ base ≠ midway := by decide

/-- `abc` turns into `abd` by one edit. -/
theorem test_witness_LevIsTheEditDistance : Edits 1 [0x61, 0x62, 0x63] [0x61, 0x62, 0x64] :=
  .cons (Edit.substitute [0x61, 0x62] [] 0x63 0x64) (.none _)

theorem test_witness_LevMeetsPrefixRecurrence :
    0 ≤ [0x61#8].length ∧ 1 ≤ [0x61#8].length ∧ 0 < [0x61#8].length ∧ 0 < [0x62#8].length := by decide

theorem test_witness_ComparisonIsSymmetric :
    Grammatical { base with cmp := #v[textK1a, textK1b] }.cmp[0] ∧
      Grammatical { base with cmp := #v[textK1a, textK1b] }.cmp[1] ∧
      { base with cmp := #v[textK1b, textK1a] }.cmp[0] = { base with cmp := #v[textK1a, textK1b] }.cmp[1] ∧
      { base with cmp := #v[textK1b, textK1a] }.cmp[1] = { base with cmp := #v[textK1a, textK1b] }.cmp[0] ∧
      { base with cmp := #v[textK1a, textK1a] }.cmp[1] = { base with cmp := #v[textK1a, textK1a] }.cmp[0] := by
  exact ⟨⟨_, _, _, test_signature_K1a⟩, ⟨_, _, _, test_signature_K1b⟩, rfl, rfl, rfl⟩

theorem test_spaceInv_finished : SpaceInv finished := by
  have ha : ∀ c ∈ ([0x6E] : Text), ∃ i, c = alphaChar i := fun c hc => (isAlpha_iff c).mp (by revert c; decide)
  exact ⟨sigCap_pos, sigCap_pos, Nat.zero_le _, Nat.zero_le _, ha, ha⟩

/-- With any capacity of 5 characters or more. -/
theorem test_witness_FinalizedSignatureComparesToZero (h : 5 ≤ Config.params.cmpCap) :
    EngInv finished ∧ SpaceInv finished ∧ finished.est = .finalized ∧
      (formatText finished).length ≤ Config.params.cmpCap := by
  have hl : (formatText finished).length = 5 := by decide
  exact ⟨⟨⟨0, by decide⟩, by decide⟩, test_spaceInv_finished, by decide, by omega⟩

/-- Statuses 0, 1, 2 and 9, each sent alone. -/
theorem test_witness_RefusedCommandsChangeOnlyTheRecord :
    sentBy (exec .nop base) = [response 0 0] ∧ sentBy (exec (.engInit 0) base) = [response 1 0]
      ∧ sentBy (exec .cmpRun base) = [response 2 0] ∧ sentBy (exec .engFmt base) = [response 9 0]
      ∧ decode 0x0200000000 = .error (.reservedOpcode 0x02) := by decide

/-- A recorded fault that a reset clears and a `NOP` does not. -/
theorem test_witness_OnlyResetClearsTheFaultRecord :
    { base with fault := true, fcause := 9, inputs := [.rst] }.fault = true
      ∧ (∃ t, step { base with fault := true, fcause := 9, inputs := [.rst] } = .next t ∧ t.fault = false)
      ∧ ∃ t, step { base with fault := true, fcause := 9, inputs := [.cmd 0] } = .next t ∧ t.fault = true := by
  exact ⟨rfl, ⟨_, rfl, rfl⟩, ⟨_, rfl, rfl⟩⟩

/-- The record empty, and with its largest cause. -/
theorem test_witness_StepKeepsFaultRecordLegal :
    FaultInv base ∧ FaultInv { base with fault := true, fcause := 11 } ∧ ∀ s, ∃ t, step s = .next t := by
  refine ⟨?_, ?_, step_is_next⟩ <;> unfold FaultInv <;> decide

theorem test_witness_StepKeepsCharacterSpaces : SpaceInv finished ∧ ∃ t, step finished = .next t :=
  ⟨test_spaceInv_finished, step_is_next _⟩

/-- `rst` held with nothing to do, with a word presented, and with the release. -/
theorem test_witness_HeldResetAcceptsNothing :
    { midway with rst := true }.rst = true ∧ { midway with rst := true }.inputs = [] ∧
      { midway with rst := true, inputs := [.cmd 0] }.inputs = .cmd 0 :: [] ∧ HostInput.cmd 0 ≠ .release ∧
      { midway with rst := true, inputs := [.release] }.inputs = .release :: [] := by decide

/-- A step after which `rst` is asserted, during a text, and one that releases it. -/
theorem test_witness_OutputsShowResetWhileHeld :
    (∃ t, step { finished with inputs := [.rstDuring 0x3200000000 2] } = .next t ∧ t.rst = true) ∧
      ∃ t, step { midway with rst := true, inputs := [.release] } = .next t ∧ t.rst = false :=
  ⟨⟨_, rfl, rfl⟩, ⟨_, rfl, rfl⟩⟩

end Sys2Proof.Tests
end

section
/-! SUPPORT. What the views of 10_state.md hold: `STATUS` as a number, field by field, and `RDREG` of a listed number. -/

namespace Sys2Proof.Machine

open Sys2Proof.Safety

/-- Bits laid side by side, as a number. -/
theorem toNat_append_eq_add {m n : Nat} (x : BitVec m) (y : BitVec n) :
    (x ++ y).toNat = x.toNat * 2 ^ n + y.toNat := by
  rw [BitVec.toNat_append, ← Nat.shiftLeft_add_eq_or_of_lt y.isLt, Nat.shiftLeft_eq]

/-- `RETRY` as a number (10_state.md R37). -/
theorem retryFlag_toNat (s : State) : (retryFlag s).toNat = if s.est = .running then 1 else 0 := by
  unfold retryFlag
  cases s.est <;> rfl

/-- `STATUS` is the weighted sum of its fields (10_state.md R34). -/
theorem statusWord_toNat (s : State) :
    (statusWord s).toNat
      = s.est.bits.toNat + 4 * (retryFlag s).toNat + 8 * s.fault.toNat + 16 * s.fcause.toNat := by
  simp only [statusWord, toNat_append_eq_add, BitVec.toNat_ofBool, BitVec.toNat_ofNat]
  omega

/-- `RDREG` of a number that names a register answers its view and changes nothing (44_system.md R221). -/
theorem exec_rdreg_of_ofNumber {reg : BitVec 8} {r : Reg} (h : Reg.ofNumber reg = some r) (s : State) :
    exec (.rdreg reg) s = .next (answered 0 (r.view s) s) := by
  have hexec : exec (.rdreg reg) s = execRdreg reg s := rfl
  rw [hexec]
  rcases execRdreg_cases reg s with ⟨hnone, -⟩ | ⟨r', hsome, hout⟩
  · rw [h] at hnone; cases hnone
  · rw [h] at hsome; cases hsome; exact hout

end Sys2Proof.Machine
end

section
/-! PROOFS. The statements about the state: its reset values and the `STATUS` view. -/

namespace Sys2Proof.Proofs

open Sys2Proof.Machine Sys2Proof.Safety

/-- Settles O14: the value from the layout of the word and the three codes of `EST`, the read from the register map. -/
theorem statusIsItsFields : Obligations.StatusIsItsFields := by
  intro s
  refine ⟨?_, exec_rdreg_of_ofNumber (r := .status) rfl s⟩
  rw [statusWord_toNat, retryFlag_toNat]
  cases s.est <;> rfl

/-- Settles O8: `State.reset` is `State.resetWith` at the block's parameters, whose record lists these values. -/
theorem resetValuesAreTheListed : Obligations.ResetValuesAreTheListed :=
  ⟨rfl, rfl, rfl, rfl, rfl, rfl, rfl, rfl, rfl, rfl, rfl, rfl, rfl, rfl, rfl⟩

end Sys2Proof.Proofs
end

section
/-! SUPPORT. How a command ends, said once for all fourteen: the ways to end as one relation, and a lemma per effect. -/

namespace Sys2Proof.Machine

open Sys2Proof.Safety

/-- The ways a command can end (30_encoding.md R81, 60_exceptions.md R230, R236): an `OK` answer with the fault record kept,
an error result, a fault, or the text of `ENG.FMT` with its length. -/
inductive CommandEnd : Instr → State → State → Prop where
  | ok {i : Instr} {s : State} (d : Word) (u : State) (hfault : u.fault = s.fault) (hcause : u.fcause = s.fcause) :
    CommandEnd i s (answered 0 d u)
  | error {i : Instr} {s : State} (st : BitVec 4) (hst : st ∈ [1#4, 2#4, 3#4, 4#4]) : CommandEnd i s (answered st 0 s)
  | fault {i : Instr} {s : State} (code : BitVec 4) (hcode : code ∈ [8#4, 9#4, 10#4, 11#4]) :
    CommandEnd i s (faulted code s)
  | text {s : State} (hest : s.est ≠ .idle) :
    CommandEnd .engFmt s { s with sent := (formatText s).map .txt ++ [response 0 (u32 (formatText s).length)] }

/-- `compare` looks at the format of the first text, then of the second, then at the block sizes (43_comparator.md R184). -/
theorem compareTexts_cases (a b : Text) :
    (parse a = none ∧ compareTexts a b = (.formatA, 0)) ∨
    (∃ pa, parse a = some pa ∧ parse b = none ∧ compareTexts a b = (.formatB, 0)) ∨
    (∃ pa pb, parse a = some pa ∧ parse b = some pb ∧ pa.bsize ≠ pb.bsize ∧ compareTexts a b = (.bsize, 0)) ∨
    (∃ pa pb, parse a = some pa ∧ parse b = some pb ∧ pa.bsize = pb.bsize ∧
      compareTexts a b = (.ok, u32 (min (lev pa.sig1 pb.sig1) (lev pa.sig2 pb.sig2)))) := by
  cases ha : parse a with
  | none => exact .inl ⟨rfl, by simp only [compareTexts, ha]⟩
  | some pa =>
    refine .inr ?_
    cases hb : parse b with
    | none => exact .inl ⟨pa, rfl, rfl, by simp only [compareTexts, ha, hb]⟩
    | some pb =>
      refine .inr ?_
      by_cases h : pa.bsize = pb.bsize
      · exact .inr ⟨pa, pb, rfl, rfl, h, by simp only [compareTexts, ha, hb, h, if_true]⟩
      · exact .inl ⟨pa, pb, rfl, rfl, h, by simp only [compareTexts, ha, hb, h, if_false]⟩

variable {i : Instr}

theorem execRdreg_commandEnd (reg : BitVec 8) (s : State) : ∃ t, execRdreg reg s = .next t ∧ CommandEnd i s t := by
  rcases execRdreg_cases reg s with ⟨-, h⟩ | ⟨r, -, h⟩
  · exact ⟨_, h, .fault 8 (by decide)⟩
  · exact ⟨_, h, .ok _ s rfl rfl⟩

theorem engInit_commandEnd (p : Params) (len : Word) (s : State) : CommandEnd i s (engInit p len s) := by
  rcases engInit_cases p len s with ⟨-, h⟩ | ⟨-, h⟩ <;> rw [h]
  · exact .error 1 (by decide)
  · exact .ok _ _ rfl rfl

/-- The end of an attempt answers `OK` and keeps the fault record. -/
theorem endOfAttempt_answers_ok (p : Params) (s : State) :
    ∃ d u, endOfAttempt p s = answered 0 d u ∧ u.fault = s.fault ∧ u.fcause = s.fcause := by
  rcases endOfAttempt_cases p s with ⟨-, h⟩ | ⟨-, -, h⟩ <;> exact ⟨_, _, h, rfl, rfl⟩

/-- A step in the middle of an attempt answers `OK` and keeps the fault record. -/
theorem midAttempt_answers_ok (p : Params) (byte : Byte) (s : State) :
    ∃ d u, midAttempt p byte s = answered 0 d u ∧ u.fault = s.fault ∧ u.fcause = s.fcause :=
  ⟨_, _, respond_eq_answered .ok _ _, by simp, by simp⟩

theorem engStep_commandEnd (p : Params) (byte : Byte) (s : State) : CommandEnd i s (engStep p byte s) := by
  rcases engStep_cases p byte s with ⟨-, h⟩ | ⟨-, h⟩ | ⟨-, -, h⟩ | ⟨-, -, -, h⟩ | ⟨-, -, -, h⟩ <;> rw [h]
  · exact .fault 9 (by decide)
  · exact .fault 10 (by decide)
  · exact .fault 11 (by decide)
  · obtain ⟨d, u, he, hf, hc⟩ := endOfAttempt_answers_ok p { s with pos := s.pos + 1 }
    exact he ▸ .ok d u hf hc
  · obtain ⟨d, u, he, hf, hc⟩ := midAttempt_answers_ok p byte { s with pos := s.pos + 1 }
    exact he ▸ .ok d u hf hc

theorem engFmt_commandEnd (s : State) : CommandEnd .engFmt s (engFmt s) := by
  rcases engFmt_cases s with ⟨-, h⟩ | ⟨hest, h⟩ <;> rw [h]
  · exact .fault 9 (by decide)
  · exact .text hest

theorem cmpPush_commandEnd (p : Params) (x : Fin 2) (char : Byte) (s : State) : CommandEnd i s (cmpPush p x char s) := by
  rcases cmpPush_cases p x char s with ⟨-, h⟩ | ⟨-, h⟩ <;> rw [h]
  · exact .fault 11 (by decide)
  · exact .ok _ _ rfl rfl

theorem cmpLdf_commandEnd (p : Params) (x : Fin 2) (s : State) : CommandEnd i s (cmpLdf p x s) := by
  rcases cmpLdf_cases p x s with ⟨-, h⟩ | ⟨-, -, h⟩ | ⟨-, -, h⟩ <;> rw [h]
  · exact .fault 9 (by decide)
  · exact .fault 11 (by decide)
  · exact .ok _ _ rfl rfl

theorem execCmpRun_commandEnd (s : State) : ∃ t, execCmpRun s = .next t ∧ CommandEnd i s t := by
  refine ⟨_, rfl, ?_⟩
  rw [respond_eq_answered]
  rcases compareTexts_cases s.cmp[0] s.cmp[1] with ⟨-, h⟩ | ⟨_, -, -, h⟩ | ⟨_, _, -, -, -, h⟩ | ⟨_, _, -, -, -, h⟩ <;> rw [h]
  · exact .error 2 (by decide)
  · exact .error 3 (by decide)
  · exact .error 4 (by decide)
  · exact .ok _ s rfl rfl

/-- Every command in every state ends in one of these ways. -/
theorem exec_commandEnd (i : Instr) (s : State) : ∃ t, exec i s = .next t ∧ CommandEnd i s t := by
  cases i with
  | rdreg reg => exact execRdreg_commandEnd reg s
  | engInit len => exact ⟨_, rfl, engInit_commandEnd Config.params len s⟩
  | engStep byte => exact ⟨_, rfl, engStep_commandEnd Config.params byte s⟩
  | engFmt => exact ⟨_, rfl, engFmt_commandEnd s⟩
  | cmpPush x char => exact ⟨_, rfl, cmpPush_commandEnd Config.params x char s⟩
  | cmpLdf x => exact ⟨_, rfl, cmpLdf_commandEnd Config.params x s⟩
  | cmpRun => exact execCmpRun_commandEnd s
  | nop | rollRst | rollAdv _ | digRst _ | digUpd _ _ | digVal _ | cmpClr _ => exact ⟨_, rfl, .ok _ _ rfl rfl⟩

end Sys2Proof.Machine
end

section
/-! PROOFS. The statement about responses (30_encoding.md R81). -/

namespace Sys2Proof.Proofs

open Sys2Proof.Machine Sys2Proof.Safety

/-- Settles O52: a command ends in one of the ways of `CommandEnd`, and each sends one response, after a text only in
`ENG.FMT`'s way. -/
theorem everyCommandAnswersOnce : Obligations.EveryCommandAnswersOnce := by
  intro i s
  obtain ⟨t, hexec, hend⟩ := exec_commandEnd i s
  cases hend with
  | ok d u => exact ⟨_, [], 0, d, hexec, rfl, by decide, by simp, by simp⟩
  | error st hst =>
    have hcodes : ∀ st ∈ [1#4, 2#4, 3#4, 4#4], st ∈ [0#4, 1, 2, 3, 4, 8, 9, 10, 11] := by decide
    exact ⟨_, [], st, 0, hexec, rfl, hcodes st hst, by simp, by simp⟩
  | fault code hcode =>
    have hcodes : ∀ st ∈ [8#4, 9#4, 10#4, 11#4], st ∈ [0#4, 1, 2, 3, 4, 8, 9, 10, 11] := by decide
    exact ⟨_, [], code, 0, hexec, rfl, hcodes code hcode, by simp, by simp⟩
  | text hest => exact ⟨_, formatText s, 0, _, hexec, rfl, by decide, by simp, fun _ => rfl⟩

end Sys2Proof.Proofs
end

section
/-! SUPPORT. Decoder and encoder as inverses, and what follows for one command: its one word, and the fault of its reserved
bits (30_encoding.md R84, R86). -/

namespace Sys2Proof

/-- `r` is an error, or the command with opcode `op` and argument `arg`. -/
def ReadsAs (op : BitVec 8) (arg : Word) (r : Except DecodeError Instr) : Prop :=
  ∀ i, r = .ok i → i.opcode = op ∧ i.argument = arg

theorem ReadsAs.ite {op : BitVec 8} {arg : Word} {c : Prop} [Decidable c] {r r' : Except DecodeError Instr}
    (hthen : c → ReadsAs op arg r) (helse : ReadsAs op arg r') : ReadsAs op arg (if c then r else r') := by
  by_cases hc : c
  · rw [if_pos hc]; exact hthen hc
  · rw [if_neg hc]; exact helse

section formats

variable {op rowOp : BitVec 8} {arg : Word}

theorem readsAs_ok {i : Instr} (hop : i.opcode = op) (harg : i.argument = arg) : ReadsAs op arg (.ok i) := by
  rintro _ ⟨⟩
  exact ⟨hop, harg⟩

theorem readsAs_error (e : DecodeError) : ReadsAs op arg (.error e) := nofun

theorem readsAs_decodeA0 {i : Instr} (hop : i.opcode = op) (harg : i.argument = 0#32) :
    ReadsAs op arg (decodeA0 rowOp arg i) := by
  intro j hj
  obtain ⟨rfl, rfl⟩ := decodeA0_eq_ok hj
  exact ⟨hop, harg⟩

theorem readsAs_decodeAB {f : Byte → Instr} (hop : ∀ b, (f b).opcode = op) (harg : ∀ b, (f b).argument = 0#24 ++ b) :
    ReadsAs op arg (decodeAB rowOp arg f) := by
  intro j hj
  obtain ⟨b, rfl, rfl⟩ := decodeAB_eq_ok hj
  exact ⟨hop b, harg b⟩

theorem readsAs_decodeAK {f : Fin 2 → Instr} (hop : ∀ k, (f k).opcode = op)
    (harg : ∀ k, (f k).argument = 0#31 ++ selectorBit k) : ReadsAs op arg (decodeAK rowOp arg f) := by
  intro j hj
  obtain ⟨k, rfl, rfl⟩ := decodeAK_eq_ok hj
  exact ⟨hop k, harg k⟩

theorem readsAs_decodeAKB {f : Fin 2 → Byte → Instr} (hop : ∀ k b, (f k b).opcode = op)
    (harg : ∀ k b, (f k b).argument = 0#23 ++ (selectorBit k ++ b)) : ReadsAs op arg (decodeAKB rowOp arg f) := by
  intro j hj
  obtain ⟨k, b, rfl, rfl⟩ := decodeAKB_eq_ok hj
  exact ⟨hop k b, harg k b⟩

end formats

/-- Row by row of the opcode table, in the decoder's order. -/
theorem readsAs_decode (w : CmdWord) : ReadsAs (opField w) (argField w) (decode w) :=
  .ite (fun hop => readsAs_decodeA0 hop.symm rfl) <|
  .ite (fun hop => readsAs_decodeAB (fun _ => hop.symm) fun _ => rfl) <|
  .ite (fun hop => readsAs_decodeA0 hop.symm rfl) <|
  .ite (fun hop => readsAs_decodeAB (fun _ => hop.symm) fun _ => rfl) <|
  .ite (fun hop => readsAs_decodeAK (fun _ => hop.symm) fun _ => rfl) <|
  .ite (fun hop => readsAs_decodeAKB (fun _ _ => hop.symm) fun _ _ => rfl) <|
  .ite (fun hop => readsAs_decodeAK (fun _ => hop.symm) fun _ => rfl) <|
  .ite (fun hop => readsAs_ok hop.symm rfl) <|
  .ite (fun hop => readsAs_decodeAB (fun _ => hop.symm) fun _ => rfl) <|
  .ite (fun hop => readsAs_decodeA0 hop.symm rfl) <|
  .ite (fun hop => readsAs_decodeAK (fun _ => hop.symm) fun _ => rfl) <|
  .ite (fun hop => readsAs_decodeAKB (fun _ _ => hop.symm) fun _ _ => rfl) <|
  .ite (fun hop => readsAs_decodeAK (fun _ => hop.symm) fun _ => rfl) <|
  .ite (fun hop => readsAs_decodeA0 hop.symm rfl) <|
  readsAs_error _

/-- A word that decodes to a command has that command's opcode and argument. -/
theorem opcode_argument_of_decode {w : CmdWord} {i : Instr} (h : decode w = .ok i) :
    i.opcode = opField w ∧ i.argument = argField w := readsAs_decode w i h

theorem encode_of_decode {w : CmdWord} {i : Instr} (h : decode w = .ok i) : encode i = w := by
  obtain ⟨hop, harg⟩ := opcode_argument_of_decode h
  rw [encode, hop, harg, opField_append_argField]

@[simp] theorem decode_encode (i : Instr) : decode (encode i) = .ok i := by
  cases i with
  | nop | rollRst | engFmt | cmpRun => rfl
  | rdreg b | rollAdv b | engStep b => simp [decode, encode, Instr.opcode, Instr.argument, decodeAB_argument]
  | digRst k | digVal k | cmpClr k | cmpLdf k =>
    simp [decode, encode, Instr.opcode, Instr.argument, decodeAK_argument]
  | digUpd k b => simpa [decode, encode, Instr.opcode, Instr.argument] using decodeAKB_argument 0x21#8 k b .digUpd
  | cmpPush k b => simpa [decode, encode, Instr.opcode, Instr.argument] using decodeAKB_argument 0x41#8 k b .cmpPush
  | engInit len => simp [decode, encode, Instr.opcode, Instr.argument]

end Sys2Proof

namespace Sys2Proof.Safety

open Sys2Proof.Machine

/-- Every command has one word, its encoding. -/
theorem wordOf_encode (i : Instr) : WordOf i (encode i) :=
  fun _ => ⟨fun h => (encode_of_decode h).symm, fun h => h ▸ decode_encode i⟩

/-- Bits that are 0 in the argument of every command with this opcode are reserved: a word with one at 1 decodes to no
command (30_encoding.md R86). -/
theorem reservedBitsFault_of_arguments {op : BitVec 8} {reserved : Word}
    (hzero : ∀ i : Instr, i.opcode = op → i.argument &&& reserved = 0) : ReservedBitsFault op reserved := by
  intro w s hop hset
  cases hd : decode w with
  | error e => simp only [takeWord, hd, raiseFault_eq_faulted]; rfl
  | ok i =>
    obtain ⟨hopcode, hargument⟩ := opcode_argument_of_decode hd
    exact absurd (hargument ▸ hzero i (hopcode.trans hop)) hset

end Sys2Proof.Safety
end

section
/-! SUPPORT. The two rolling commands: what each leaves and answers, and its reserved bits (40_rolling.md R101, R102). -/

namespace Sys2Proof.Machine

open Sys2Proof.Safety

/-- `ROLL.RST` answers `OK`, 0 after `rollReset` (40_rolling.md R101). -/
theorem exec_rollRst (s : State) : exec .rollRst s = .next (answered 0 0 (rollReset s)) := rfl

/-- `ROLL.ADV` answers the checksum of the state it leaves (40_rolling.md R102). -/
theorem exec_rollAdv (b : Byte) (s : State) :
    exec (.rollAdv b) s = .next (answered 0 (sumView (advance b s)) (advance b s)) := rfl

theorem reservedBitsFault_rollRst : ReservedBitsFault 0x10 0xFFFFFFFF := by
  refine reservedBitsFault_of_arguments fun i hop => ?_
  cases i with
  | rollRst => decide
  | _ => exact absurd hop (by simp [Instr.opcode])

theorem reservedBitsFault_rollAdv : ReservedBitsFault 0x11 0xFFFFFF00 := by
  refine reservedBitsFault_of_arguments fun i hop => ?_
  cases i with
  | rollAdv b => revert b; unfold Instr.argument; decide
  | _ => exact absurd hop (by simp [Instr.opcode])

end Sys2Proof.Machine
end

section
/-! PROOFS. The statements about one rolling command: `ROLL.RST` and `ROLL.ADV` (40_rolling.md R101, R102). -/

namespace Sys2Proof.Proofs

open Sys2Proof.Machine Sys2Proof.Safety

/-- Settles O17: the word from the encoding, and the next state from `advance`, whose index steps in `Fin 7` and so wraps. -/
theorem rollAdvIsTheRecurrence : Obligations.RollAdvIsTheRecurrence := by
  refine ⟨reservedBitsFault_rollAdv, fun b => ⟨wordOf_encode (.rollAdv b), fun s => ?_⟩⟩
  rw [exec_rollAdv, sumView_advance]
  rfl

/-- Settles O16: the word from the encoding, and the next state from `rollReset`, whose window is seven zeros. -/
theorem rollRstZeroesTheUnit : Obligations.RollRstZeroesTheUnit := by
  have hwin : Vector.replicate 7 (0 : Byte) = #v[0, 0, 0, 0, 0, 0, 0] := rfl
  refine ⟨wordOf_encode .rollRst, reservedBitsFault_rollRst, fun s => ?_⟩
  rw [exec_rollRst, rollReset, hwin]

end Sys2Proof.Proofs
end

section
/-! SUPPORT. The three digest commands: what each leaves and answers, its word and its reserved bits (41_digest.md R121 to
R123). -/

namespace Sys2Proof

/-- An argument that is only a selector is the selector's number (30_encoding.md R83). -/
theorem zeros_append_selectorBit (k : Fin 2) : 0#31 ++ selectorBit k = BitVec.ofNat 32 k.val := by revert k; decide

/-- An argument that is only a selector has bits 31:1 at 0. -/
theorem selectorArgument_and_reserved (k : Fin 2) : (0#31 ++ selectorBit k) &&& 0xFFFFFFFE = 0 := by revert k; decide

/-- An argument that is a selector and a byte has bits 31:9 at 0. -/
theorem selectorByteArgument_and_reserved (k : Fin 2) (b : Byte) :
    (0#23 ++ (selectorBit k ++ b)) &&& 0xFFFFFE00 = 0 := by revert k b; decide

end Sys2Proof

namespace Sys2Proof.Machine

open Sys2Proof.Safety

/-- `mulXor` takes the product over the natural numbers and reduces it modulo 2^32 before the XOR (41_digest.md R122). -/
theorem mulXor_eq_reduced_product (v : Word) (b : Byte) :
    mulXor v b = BitVec.ofNat 32 (v.toNat * 16777619) ^^^ b.setWidth 32 := by
  have hprod : v * Config.prime = BitVec.ofNat 32 (v.toNat * 16777619) := by
    rw [BitVec.ofNat_mul, BitVec.ofNat_toNat, BitVec.setWidth_eq]
    rfl
  rw [mulXor, hprod, zext]

/-- `DIG.RST` answers `OK`, 0 after `digestReset` (41_digest.md R121). -/
theorem exec_digRst (k : Fin 2) (s : State) :
    exec (.digRst k) s = .next (answered 0 0 (digestReset Config.params k s)) := rfl

/-- `DIG.UPD` answers `OK`, 0 after `digestUpdate` (41_digest.md R122). -/
theorem exec_digUpd (k : Fin 2) (b : Byte) (s : State) :
    exec (.digUpd k b) s = .next (answered 0 0 (digestUpdate k b s)) := rfl

/-- `DIG.VAL` only answers the word (41_digest.md R123). -/
theorem exec_digVal (k : Fin 2) (s : State) : exec (.digVal k) s = .next (answered 0 s.acc[k] s) := rfl

/-- The register numbers 0x10 and 0x11 name the digest words (10_state.md R39). -/
theorem ofNumber_acc (k : Fin 2) : Reg.ofNumber (0x10 + BitVec.ofNat 8 k.val) = some (.acc k) := by revert k; decide

/-- The one word of a command whose operand is only a selector. -/
theorem wordOf_selector {i : Instr} {k : Fin 2} (harg : i.argument = 0#31 ++ selectorBit k) :
    WordOf i (i.opcode ++ BitVec.ofNat 32 k.val) := by
  rw [← zeros_append_selectorBit k, ← harg]
  exact wordOf_encode i

theorem reservedBitsFault_digRst : ReservedBitsFault 0x20 0xFFFFFFFE := by
  refine reservedBitsFault_of_arguments fun i hop => ?_
  cases i with
  | digRst k => exact selectorArgument_and_reserved k
  | _ => exact absurd hop (by simp [Instr.opcode])

theorem reservedBitsFault_digUpd : ReservedBitsFault 0x21 0xFFFFFE00 := by
  refine reservedBitsFault_of_arguments fun i hop => ?_
  cases i with
  | digUpd k b => exact selectorByteArgument_and_reserved k b
  | _ => exact absurd hop (by simp [Instr.opcode])

theorem reservedBitsFault_digVal : ReservedBitsFault 0x22 0xFFFFFFFE := by
  refine reservedBitsFault_of_arguments fun i hop => ?_
  cases i with
  | digVal k => exact selectorArgument_and_reserved k
  | _ => exact absurd hop (by simp [Instr.opcode])

end Sys2Proof.Machine
end

section
/-! PROOFS. The statements about one digest command: `DIG.RST`, `DIG.UPD` and `DIG.VAL` (41_digest.md R121 to R123). -/

namespace Sys2Proof.Proofs

open Sys2Proof.Machine Sys2Proof.Safety

/-- Settles O21: the word from the encoding, and the next state from `digestReset`, which writes one entry of `ACC`. -/
theorem digRstRestoresTheSeed : Obligations.DigRstRestoresTheSeed := by
  refine ⟨reservedBitsFault_digRst, fun k => ⟨wordOf_selector (i := .digRst k) rfl, fun s => ?_⟩⟩
  rw [exec_digRst, digestReset, setAcc]

/-- Settles O22: the word from the encoding, and the next state from `digestUpdate`, whose wrapping product is the product of
the numbers reduced. -/
theorem digUpdMultipliesThenXors : Obligations.DigUpdMultipliesThenXors := by
  refine ⟨reservedBitsFault_digUpd, fun k b => ⟨wordOf_encode (.digUpd k b), fun s => ?_⟩⟩
  rw [exec_digUpd, digestUpdate, mulXor_eq_reduced_product, setAcc]

/-- Settles O23: the word from the encoding, and both answers read the same entry of `ACC`, `RDREG` by the register map. -/
theorem digValAnswersTheWord : Obligations.DigValAnswersTheWord :=
  ⟨reservedBitsFault_digVal, fun k => ⟨wordOf_selector (i := .digVal k) rfl, fun s =>
    ⟨exec_digVal k s, exec_rdreg_of_ofNumber (ofNumber_acc k) s⟩⟩⟩

end Sys2Proof.Proofs
end

section
/-! SUPPORT. The start of an attempt and the text of the engine: the doubling loop, `ENG.INIT` and `ENG.FMT` as whole next
states (42_engine.md R142, R143, R153). -/

namespace Sys2Proof.Machine

open Sys2Proof.Safety

/-- The doubling loop stops at the least `bs * 2^n` that reaches the length, when its fuel allows one that does
(42_engine.md R143). -/
theorem bs0Loop_eq_least_doubling {fuel bs len : Nat} (hfuel : len ≤ bs * 2 ^ fuel * 64) :
    ∃ n, n ≤ fuel ∧ len ≤ bs * 2 ^ n * 64 ∧ (∀ m, m < n → bs * 2 ^ m * 64 < len) ∧ bs0Loop fuel bs len = bs * 2 ^ n := by
  induction fuel generalizing bs with
  | zero => exact ⟨0, le_rfl, hfuel, nofun, (Nat.mul_one bs).symm⟩
  | succ fuel ih =>
    by_cases hshort : bs * 64 < len
    · have hdouble : ∀ n, bs * 2 * 2 ^ n = bs * 2 ^ (n + 1) := fun n => by rw [Nat.pow_succ']; exact Nat.mul_assoc ..
      obtain ⟨n, hn, hreach, hleast, hloop⟩ := ih (bs := bs * 2) (by rwa [hdouble])
      rw [hdouble] at hreach hloop
      refine ⟨n + 1, Nat.succ_le_succ hn, hreach, fun m hm => ?_, by rw [bs0Loop, if_pos hshort, hloop]⟩
      cases m with
      | zero => simpa using hshort
      | succ m => exact hdouble m ▸ hleast m (Nat.lt_of_succ_lt_succ hm)
    · exact ⟨0, Nat.zero_le _, by omega, nofun, by rw [bs0Loop, if_neg hshort, Nat.pow_zero, Nat.mul_one]⟩

/-- `bs0` is the least `3 * 2^n` that reaches the length, and 25 doublings reach every length (42_engine.md R143). -/
theorem bs0_eq_least_doubling (len : Word) :
    ∃ n, n ≤ 25 ∧ len.toNat ≤ 3 * 2 ^ n * 64 ∧ (∀ m, m < n → 3 * 2 ^ m * 64 < len.toNat) ∧
      bs0 len = BitVec.ofNat 32 (3 * 2 ^ n) := by
  have henough : len.toNat ≤ 3 * 2 ^ 25 * 64 := by have := len.isLt; omega
  obtain ⟨n, hn, hreach, hleast, hloop⟩ := bs0Loop_eq_least_doubling henough
  exact ⟨n, hn, hreach, hleast, congrArg u32 hloop⟩

/-- `ENG.INIT` refuses length 0 and changes nothing (42_engine.md R142). -/
theorem exec_engInit_zero (s : State) : exec (.engInit 0) s = .next (answered 1 0 s) := rfl

/-- `ENG.INIT` of any other length starts an attempt at `bs0` (42_engine.md R142, R144). -/
theorem exec_engInit_of_ne_zero {len : Word} (hlen : len ≠ 0) (s : State) :
    exec (.engInit len) s
      = .next (answered 0 (bs0 len) { attemptReset Config.params { s with bs := bs0 len, len := len } with est := .running }) := by
  rcases engInit_cases Config.params len s with ⟨hzero, -⟩ | ⟨-, h⟩
  · exact absurd hzero hlen
  · exact congrArg _ h

/-- `ENG.FMT` with no engine (60_exceptions.md R238). -/
theorem exec_engFmt_of_idle {s : State} (hest : s.est = .idle) : exec .engFmt s = .next (faulted 9 s) := by
  rcases engFmt_cases s with ⟨-, h⟩ | ⟨hne, -⟩
  · exact congrArg _ h
  · exact absurd hest hne

/-- `ENG.FMT` with an engine sends the text, then its length (42_engine.md R153). -/
theorem exec_engFmt_of_not_idle {s : State} (hest : s.est ≠ .idle) :
    exec .engFmt s
      = .next { s with sent := (formatText s).map .txt ++ [response 0 (u32 (formatText s).length)] } := by
  rcases engFmt_cases s with ⟨hidle, -⟩ | ⟨-, h⟩
  · exact absurd hidle hest
  · exact congrArg _ h

theorem reservedBitsFault_engFmt : ReservedBitsFault 0x32 0xFFFFFFFF := by
  refine reservedBitsFault_of_arguments fun i hop => ?_
  cases i with
  | engFmt => decide
  | _ => exact absurd hop (by simp [Instr.opcode])

end Sys2Proof.Machine
end

section
/-! SUPPORT. `ENG.STEP` while an attempt runs: when it goes through, and the state each of its two ways leaves
(42_engine.md R145 to R148). -/

namespace Sys2Proof.Machine

open Sys2Proof.Safety

/-- The test without a subtraction is the spec's test over the integers, for every block size (42_engine.md R148). -/
theorem mod_succ_beq_eq_decide (c m : Nat) : (c % m + 1 == m) = decide ((c : Int) % m = (m : Int) - 1) := by
  rw [← Int.natCast_emod, Bool.beq_eq_decide_eq]
  exact decide_eq_decide.mpr (by omega)

theorem trigger1_eq_decide (c bs : Word) :
    trigger1 c bs = decide ((c.toNat : Int) % bs.toNat = (bs.toNat : Int) - 1) := mod_succ_beq_eq_decide _ _

theorem trigger2_eq_decide (c bs : Word) :
    trigger2 c bs = decide ((c.toNat : Int) % (2 * bs.toNat) = 2 * (bs.toNat : Int) - 1) :=
  mod_succ_beq_eq_decide c.toNat (2 * bs.toNat)

/-- The report of a step in the middle of an attempt as a number (42_engine.md R150). -/
theorem stepReport_zero_eq_ofNat (trig1 trig2 : Bool) :
    stepReport 0 trig1 trig2 = BitVec.ofNat 32 (256 * trig1.toNat + 512 * trig2.toNat) := by
  revert trig1 trig2
  decide

theorem sigFull_eq_false_iff (p : Params) (k : Fin 2) (s : State) : sigFull p k s = false ↔ s.sig[k].length < p.sigCap := by
  simp [sigFull]

/-- At the end of an attempt with room in both halves nothing would overflow (42_engine.md R156). -/
theorem wouldOverflow_of_last {p : Params} {byte : Byte} {s : State} (hlast : s.pos + 1 = s.len)
    (hroom0 : s.sig[0].length < p.sigCap) (hroom1 : s.sig[1].length < p.sigCap) : wouldOverflow p byte s = false := by
  rw [wouldOverflow, if_pos hlast, Bool.or_eq_false_iff]
  exact ⟨(sigFull_eq_false_iff p 0 s).mpr hroom0, (sigFull_eq_false_iff p 1 s).mpr hroom1⟩

/-- In the middle of an attempt with room in each half that a trigger would grow nothing would overflow
(42_engine.md R156). -/
theorem wouldOverflow_of_mid {p : Params} {byte : Byte} {s : State} (hmid : s.pos + 1 ≠ s.len)
    (hroom0 : trigger1 (sumView (advance byte s)) s.bs = true → s.sig[0].length < p.sigCap)
    (hroom1 : trigger2 (sumView (advance byte s)) s.bs = true → s.sig[1].length < p.sigCap) :
    wouldOverflow p byte s = false := by
  rw [wouldOverflow, if_neg hmid, Bool.or_eq_false_iff, Bool.and_eq_false_imp, Bool.and_eq_false_imp]
  exact ⟨fun h => (sigFull_eq_false_iff p 0 s).mpr (hroom0 h), fun h => (sigFull_eq_false_iff p 1 s).mpr (hroom1 h)⟩

/-- A running engine with no overflow at hand ends the attempt or goes on with it (42_engine.md R145). -/
theorem engStep_of_running {p : Params} {byte : Byte} {s : State} (hest : s.est = .running)
    (hroom : wouldOverflow p byte s = false) :
    (s.pos + 1 = s.len ∧ engStep p byte s = endOfAttempt p { s with pos := s.pos + 1 }) ∨
    (s.pos + 1 ≠ s.len ∧ engStep p byte s = midAttempt p byte { s with pos := s.pos + 1 }) := by
  simpa [hest, hroom] using engStep_cases p byte s

/-- The last step of an attempt, with room in both halves (42_engine.md R145). -/
theorem exec_engStep_of_last {byte : Byte} {s : State} (hest : s.est = .running) (hlast : s.pos + 1 = s.len)
    (hroom0 : s.sig[0].length < Config.params.sigCap) (hroom1 : s.sig[1].length < Config.params.sigCap) :
    exec (.engStep byte) s = .next (endOfAttempt Config.params { s with pos := s.len }) := by
  rcases engStep_of_running hest (wouldOverflow_of_last hlast hroom0 hroom1) with ⟨-, h⟩ | ⟨hmid, -⟩
  · rw [hlast] at h
    exact congrArg _ h
  · exact absurd hlast hmid

/-- Any other step, with room in each half that a trigger would grow (42_engine.md R145). -/
theorem exec_engStep_of_mid {byte : Byte} {s : State} (hest : s.est = .running) (hmid : s.pos + 1 ≠ s.len)
    (hroom0 : trigger1 (sumView (advance byte s)) s.bs = true → s.sig[0].length < Config.params.sigCap)
    (hroom1 : trigger2 (sumView (advance byte s)) s.bs = true → s.sig[1].length < Config.params.sigCap) :
    exec (.engStep byte) s = .next (midAttempt Config.params byte { s with pos := s.pos + 1 }) := by
  rcases engStep_of_running hest (wouldOverflow_of_mid hmid hroom0 hroom1) with ⟨hlast, -⟩ | ⟨-, h⟩
  · exact absurd hlast hmid
  · exact congrArg _ h

/-- Both updates of a step (42_engine.md R147). -/
theorem digestUpdate_both (byte : Byte) (s : State) :
    digestUpdate 1 byte (digestUpdate 0 byte s)
      = { s with acc := #v[mulXor s.acc[0] byte, mulXor s.acc[1] byte] } := by
  simp [digestUpdate, setAcc]

/-- Both appends at the end of an attempt (42_engine.md R146). -/
theorem emit_both (s : State) :
    emit 1 (emit 0 s) = { s with sig := #v[s.sig[0] ++ [ch s.acc[0]], s.sig[1] ++ [ch s.acc[1]]] } := by
  simp [emit, setSig, memAppend]

theorem emitOnTrigger_eq (p : Params) (trig : Bool) (k : Fin 2) (s : State) :
    emitOnTrigger p trig k s
      = { s with
          acc := if trig then s.acc.set k p.digestSeed else s.acc
          sig := if trig then s.sig.set k (s.sig[k] ++ [ch s.acc[k]]) else s.sig } := by
  cases trig <;> rfl

/-- Each trigger grows its own half and reseeds its own word, whatever the other does (42_engine.md R147). -/
theorem emitOnTrigger_both (p : Params) (trig1 trig2 : Bool) (s : State) :
    emitOnTrigger p trig2 1 (emitOnTrigger p trig1 0 s)
      = { s with
          acc := #v[if trig1 then p.digestSeed else s.acc[0], if trig2 then p.digestSeed else s.acc[1]]
          sig := #v[if trig1 then s.sig[0] ++ [ch s.acc[0]] else s.sig[0],
                    if trig2 then s.sig[1] ++ [ch s.acc[1]] else s.sig[1]] } := by
  have hacc := vector_eq_pair s.acc
  have hsig := vector_eq_pair s.sig
  cases trig1 <;> cases trig2 <;> simp [emitOnTrigger_eq, ← hacc, ← hsig]

/-- `MidAttempt` as one update of the advanced state (42_engine.md R147, R150). -/
theorem midAttempt_eq (p : Params) (byte : Byte) (s : State) {trig1 trig2 : Bool}
    (h1 : trigger1 (sumView (advance byte s)) s.bs = trig1) (h2 : trigger2 (sumView (advance byte s)) s.bs = trig2) :
    midAttempt p byte s
      = answered 0 (stepReport 0 trig1 trig2)
          { advance byte s with
            acc := #v[if trig1 then p.digestSeed else mulXor s.acc[0] byte,
                      if trig2 then p.digestSeed else mulXor s.acc[1] byte]
            sig := #v[if trig1 then s.sig[0] ++ [ch (mulXor s.acc[0] byte)] else s.sig[0],
                      if trig2 then s.sig[1] ++ [ch (mulXor s.acc[1] byte)] else s.sig[1]] } := by
  subst h1 h2
  rw [midAttempt, digestUpdate_both, emitOnTrigger_both]
  rfl

end Sys2Proof.Machine
end

section
/-! PROOFS. The statements about one engine command: `ENG.INIT`, `ENG.STEP` while an attempt runs, and `ENG.FMT`
(42_engine.md R142 to R148, R153). -/

namespace Sys2Proof.Proofs

open Sys2Proof.Machine Sys2Proof.Safety

/-- Settles O26: the word from the encoding, the block size from the doubling loop, and the attempt's start from
`attemptReset`. -/
theorem engInitStartsAnAttempt : Obligations.EngInitStartsAnAttempt := by
  refine fun len => ⟨wordOf_encode (.engInit len), fun s => ⟨?_, fun hlen => ?_⟩⟩
  · rintro rfl
    exact exec_engInit_zero s
  · obtain ⟨n, hn, hreach, hleast, hbs⟩ := bs0_eq_least_doubling len
    refine ⟨n, hn, hreach, hleast, ?_⟩
    rw [exec_engInit_of_ne_zero hlen, attemptReset_eq, hbs]
    rfl

/-- Settles O27: with room under each trigger the step is `midAttempt`, one update of the advanced state. -/
theorem engStepMidAttempt : Obligations.EngStepMidAttempt := by
  intro s b h2 h1 h3 c a0 a1 trig1 trig2 hest _ hmid hroom0 hroom1
  have htrig1 : trigger1 (sumView (advance b s)) s.bs = trig1 := trigger1_eq_decide c s.bs
  have htrig2 : trigger2 (sumView (advance b s)) s.bs = trig2 := trigger2_eq_decide c s.bs
  rw [exec_engStep_of_mid hest hmid (htrig1 ▸ hroom0) (htrig2 ▸ hroom1),
    midAttempt_eq _ _ { s with pos := s.pos + 1 } htrig1 htrig2, stepReport_zero_eq_ofNat]
  rfl

/-- Settles O28: with room in both halves the step is `endOfAttempt`, which finalises or restarts by the first half's length
and the block size. -/
theorem engStepEndsAttempt : Obligations.EngStepEndsAttempt := by
  intro s b hest hlast hroom0 hroom1
  rw [exec_engStep_of_last hest hlast hroom0 hroom1]
  rcases endOfAttempt_cases Config.params { s with pos := s.len } with ⟨hfinal, h⟩ | ⟨hshort, hbs, h⟩
  · refine ⟨fun _ => ?_, fun hrestart => absurd (hfinal.imp_left Nat.succ_le_succ) hrestart⟩
    rw [h, emit_both]
    rfl
  · refine ⟨fun hfinal => absurd hfinal ?_, fun _ => ?_⟩
    · rintro (hlong | hmin)
      · exact absurd (Nat.succ_lt_succ hshort) (Nat.not_lt.mpr hlong)
      · exact hbs hmin
    · have hhalf : s.bs / 2 = BitVec.ofNat 32 (s.bs.toNat / 2) := BitVec.udiv_def
      rw [h, emit_both, attemptReset_eq, ← hhalf]
      rfl

/-- Settles O34: the word and its reserved bits from the encoding, and the two ways of `engFmt`. -/
theorem engFmtSendsTheText : Obligations.EngFmtSendsTheText :=
  ⟨wordOf_encode .engFmt, reservedBitsFault_engFmt, fun _ => ⟨exec_engFmt_of_idle, exec_engFmt_of_not_idle⟩⟩

end Sys2Proof.Proofs
end

section
/-! SUPPORT. The comparator's commands: what each leaves and answers, and its reserved bits (43_comparator.md R181, R183,
R184). -/

namespace Sys2Proof.Machine

open Sys2Proof.Safety

/-- `CMP.CLR` answers `OK`, 0 after emptying one buffer (43_comparator.md R181). -/
theorem exec_cmpClr (x : Fin 2) (s : State) : exec (.cmpClr x) s = .next (answered 0 0 (setCmp x [] s)) := rfl

/-- `CMP.RUN` only answers the comparison of the two buffers (43_comparator.md R184). -/
theorem exec_cmpRun (s : State) :
    exec .cmpRun s
      = .next (answered (compareTexts s.cmp[0] s.cmp[1]).1.code (compareTexts s.cmp[0] s.cmp[1]).2 s) := rfl

section cmpLdf
variable {x : Fin 2} {s : State}

/-- `CMP.LDF` with no engine (60_exceptions.md R238). -/
theorem exec_cmpLdf_of_idle (hest : s.est = .idle) : exec (.cmpLdf x) s = .next (faulted 9 s) := by
  rcases cmpLdf_cases Config.params x s with ⟨-, h⟩ | ⟨hne, -⟩ | ⟨hne, -⟩
  · exact congrArg _ h
  · exact absurd hest hne
  · exact absurd hest hne

/-- `CMP.LDF` of a text longer than the buffer (60_exceptions.md R240). -/
theorem exec_cmpLdf_of_too_long (hest : s.est ≠ .idle) (hlong : Config.params.cmpCap < (formatText s).length) :
    exec (.cmpLdf x) s = .next (faulted 11 s) := by
  rcases cmpLdf_cases Config.params x s with ⟨hidle, -⟩ | ⟨-, -, h⟩ | ⟨-, hfits, -⟩
  · exact absurd hidle hest
  · exact congrArg _ h
  · exact absurd hlong (Nat.not_lt.mpr hfits)

/-- `CMP.LDF` of a text that fits replaces the buffer and answers the length (43_comparator.md R183). -/
theorem exec_cmpLdf_of_fits (hest : s.est ≠ .idle) (hfits : (formatText s).length ≤ Config.params.cmpCap) :
    exec (.cmpLdf x) s = .next (answered 0 (u32 (formatText s).length) (setCmp x (formatText s) s)) := by
  rcases cmpLdf_cases Config.params x s with ⟨hidle, -⟩ | ⟨-, hlong, -⟩ | ⟨-, -, h⟩
  · exact absurd hidle hest
  · exact absurd hlong (Nat.not_lt.mpr hfits)
  · exact congrArg _ h

end cmpLdf

theorem reservedBitsFault_cmpClr : ReservedBitsFault 0x40 0xFFFFFFFE := by
  refine reservedBitsFault_of_arguments fun i hop => ?_
  cases i with
  | cmpClr x => exact selectorArgument_and_reserved x
  | _ => exact absurd hop (by simp [Instr.opcode])

theorem reservedBitsFault_cmpLdf : ReservedBitsFault 0x42 0xFFFFFFFE := by
  refine reservedBitsFault_of_arguments fun i hop => ?_
  cases i with
  | cmpLdf x => exact selectorArgument_and_reserved x
  | _ => exact absurd hop (by simp [Instr.opcode])

theorem reservedBitsFault_cmpRun : ReservedBitsFault 0x43 0xFFFFFFFF := by
  refine reservedBitsFault_of_arguments fun i hop => ?_
  cases i with
  | cmpRun => decide
  | _ => exact absurd hop (by simp [Instr.opcode])

end Sys2Proof.Machine
end

section
/-! SUPPORT. `parse` accepts exactly the signatures of the grammar and returns their fields (43_comparator.md R185, R186), so
`compare` can be read over the grammar. -/

namespace Sys2Proof.Machine

open Sys2Proof.Safety

theorem isDigits_iff (d : Text) : isDigits d = true ↔ Digits d := by simp [isDigits, Digits, isDigit]

theorem isAlphaRun_iff (r : Text) : isAlphaRun r = true ↔ AlphaRun r := by simp [isAlphaRun, AlphaRun, isAlpha_iff]

theorem colon_notMem_of_digits {d : Text} (h : Digits d) : colon ∉ d :=
  fun hmem => absurd (h.2 colon hmem) (by decide)

theorem colon_notMem_of_alphaRun {r : Text} (h : AlphaRun r) : colon ∉ r :=
  fun hmem => absurd ((isAlpha_iff colon).mpr (h.2 colon hmem)) (by simp [isAlpha_colon])

/-- A signature is cut into its three fields. -/
theorem splitColon_of_signature {t d r1 r2 : Text} (h : Signature t d r1 r2) : splitColon t = [d, r1, r2] := by
  obtain ⟨hd, h1, h2, rfl⟩ := h
  calc splitColon (d ++ [colon] ++ r1 ++ [colon] ++ r2)
      = splitColon (d ++ colon :: (r1 ++ colon :: r2)) := by simp
    _ = [d, r1, r2] := by
      rw [splitColon_append _ _ (colon_notMem_of_digits hd), splitColon_append _ _ (colon_notMem_of_alphaRun h1),
        splitColon_of_notMem _ (colon_notMem_of_alphaRun h2)]

/-- A signature parses to its number and its runs. -/
theorem parse_of_signature {t d r1 r2 : Text} (h : Signature t d r1 r2) : parse t = some ⟨decValue d, r1, r2⟩ := by
  obtain ⟨hd, h1, h2, -⟩ := id h
  simp [parse, splitColon_of_signature h, (isDigits_iff d).mpr hd, (isAlphaRun_iff _).mpr h1, (isAlphaRun_iff _).mpr h2]

/-- Only a text of the grammar parses: the pieces joined by `:` are the text. -/
theorem grammatical_of_parse {t : Text} {pa : Parsed} (h : parse t = some pa) : Grammatical t := by
  unfold parse at h
  split at h
  next d r1 r2 hsplit =>
    split at h
    next hok =>
      simp only [Bool.and_eq_true, isDigits_iff, isAlphaRun_iff] at hok
      obtain ⟨⟨hd, h1⟩, h2⟩ := hok
      refine ⟨d, r1, r2, hd, h1, h2, ?_⟩
      have hjoin := intercalate_splitColon t
      rw [hsplit] at hjoin
      simpa [List.intercalate, colon] using hjoin.symm
    next => cases h
  next => cases h

/-- `parse` answers `Malformed` exactly outside the grammar. -/
theorem parse_eq_none_iff (t : Text) : parse t = none ↔ ¬ Grammatical t := by
  constructor
  · rintro h ⟨d, r1, r2, hsig⟩
    rw [parse_of_signature hsig] at h
    cases h
  · intro h
    cases hp : parse t with
    | none => rfl
    | some pa => exact absurd (grammatical_of_parse hp) h

theorem compareTexts_of_first_malformed {a b : Text} (ha : ¬ Grammatical a) : compareTexts a b = (.formatA, 0) := by
  simp only [compareTexts, (parse_eq_none_iff a).mpr ha]

theorem compareTexts_of_second_malformed {a b : Text} (ha : Grammatical a) (hb : ¬ Grammatical b) :
    compareTexts a b = (.formatB, 0) := by
  obtain ⟨d, r1, r2, hsig⟩ := ha
  simp only [compareTexts, parse_of_signature hsig, (parse_eq_none_iff b).mpr hb]

/-- Of two signatures the numbers are compared, then the runs (43_comparator.md R188). -/
theorem compareTexts_of_signatures {a b d e r1 r2 q1 q2 : Text} (ha : Signature a d r1 r2) (hb : Signature b e q1 q2) :
    compareTexts a b
      = if decValue d = decValue e then (.ok, u32 (min (lev r1 q1) (lev r2 q2))) else (.bsize, 0) := by
  simp only [compareTexts, parse_of_signature ha, parse_of_signature hb]

end Sys2Proof.Machine
end

section
/-! SUPPORT. `lev` against the edits of its definition (43_comparator.md R189): `lev x y` edits suffice, and one edit of a text
changes its distance to any other text by at most 1. -/

namespace Sys2Proof.Machine

open Sys2Proof.Safety

section recurrence
variable (x y : Byte) (xs ys : Text)

theorem lev_cons_cons_le_delete : lev (x :: xs) (y :: ys) ≤ lev xs (y :: ys) + 1 := by rw [lev_cons_cons]; omega

theorem lev_cons_cons_le_insert : lev (x :: xs) (y :: ys) ≤ lev (x :: xs) ys + 1 := by rw [lev_cons_cons]; omega

theorem lev_cons_cons_le_substitute : lev (x :: xs) (y :: ys) ≤ lev xs ys + 1 := by rw [lev_cons_cons]; split <;> omega

/-- The distance of two non-empty texts comes from one of four first moves: delete, insert, substitute, keep. -/
theorem lev_cons_cons_cases :
    lev (x :: xs) (y :: ys) = lev xs (y :: ys) + 1 ∨ lev (x :: xs) (y :: ys) = lev (x :: xs) ys + 1 ∨
      lev (x :: xs) (y :: ys) = lev xs ys + 1 ∨ (x = y ∧ lev (x :: xs) (y :: ys) = lev xs ys) := by
  rw [lev_cons_cons]
  split
  next heq =>
    simp only [heq, true_and]
    omega
  next => omega

end recurrence

theorem lev_self (x : Text) : lev x x = 0 := by
  induction x with
  | nil => rfl
  | cons c x ih => rw [lev_cons_cons, ih, if_pos rfl]; omega

/-- Delete and insert change places in the recurrence. -/
theorem lev_comm (x y : Text) : lev x y = lev y x := by
  induction x generalizing y with
  | nil => simp
  | cons c x ihx =>
    induction y with
    | nil => simp
    | cons d y ihy =>
      rw [lev_cons_cons, lev_cons_cons, ihx, ihx, ihy, min_comm (lev _ _ + 1)]
      simp only [eq_comm (a := c)]

theorem lev_le_max_length (x y : Text) : lev x y ≤ max x.length y.length := by
  induction x generalizing y with
  | nil => simp
  | cons c x ih =>
    cases y with
    | nil => simp
    | cons d y =>
      have := lev_cons_cons_le_substitute c d x y
      have := ih y
      simp only [List.length_cons]
      omega

/-! ### `lev x y` edits suffice -/

/-- Edits after a common first character. -/
theorem edits_cons {n : Nat} {x y : Text} (c : Byte) (h : Edits n x y) : Edits n (c :: x) (c :: y) := by
  induction h with
  | none x => exact .none _
  | cons first _ ih =>
    refine .cons ?_ ih
    cases first with
    | insert u v d => exact .insert (c :: u) v d
    | delete u v d => exact .delete (c :: u) v d
    | substitute u v d e => exact .substitute (c :: u) v d e

theorem edits_delete_first {n : Nat} {x y : Text} (c : Byte) (h : Edits n x y) : Edits (n + 1) (c :: x) y :=
  .cons (.delete [] x c) h

theorem edits_insert_first {n : Nat} {x y : Text} (c : Byte) (h : Edits n x y) : Edits (n + 1) x (c :: y) :=
  .cons (.insert [] x c) (edits_cons c h)

theorem edits_substitute_first {n : Nat} {x y : Text} (c d : Byte) (h : Edits n x y) : Edits (n + 1) (c :: x) (d :: y) :=
  .cons (.substitute [] x c d) (edits_cons d h)

/-- Each first move of the recurrence is an edit, or none. -/
theorem edits_lev (x y : Text) : Edits (lev x y) x y := by
  induction x generalizing y with
  | nil =>
    rw [lev_nil_left]
    induction y with
    | nil => exact .none []
    | cons d y ihy => exact edits_insert_first d ihy
  | cons c x ihx =>
    induction y with
    | nil =>
      have := ihx []
      rw [lev_nil_right] at this ⊢
      exact edits_delete_first c this
    | cons d y ihy =>
      rcases lev_cons_cons_cases c d x y with h | h | h | ⟨rfl, h⟩ <;> rw [h]
      · exact edits_delete_first c (ihx (d :: y))
      · exact edits_insert_first d ihy
      · exact edits_substitute_first c d (ihx y)
      · exact edits_cons c (ihx y)

/-! ### No fewer do -/

theorem lev_cons_left_le (c : Byte) (x z : Text) : lev (c :: x) z ≤ lev x z + 1 := by
  cases z with
  | nil => simp
  | cons w z => exact lev_cons_cons_le_delete c w x z

theorem lev_cons_right_le (w : Byte) (x z : Text) : lev x (w :: z) ≤ lev x z + 1 := by
  rw [lev_comm x, lev_comm x]
  exact lev_cons_left_le w z x

theorem le_lev_cons_left (c : Byte) (x z : Text) : lev x z ≤ lev (c :: x) z + 1 := by
  induction z with
  | nil => simp; omega
  | cons w z ih =>
    have hins := lev_cons_right_le w x z
    rcases lev_cons_cons_cases c w x z with h | h | h | ⟨-, h⟩ <;> omega

theorem lev_substitute_first_le (c d : Byte) (x z : Text) : lev (c :: x) z ≤ lev (d :: x) z + 1 := by
  induction z with
  | nil => simp
  | cons w z ih =>
    have hdel := lev_cons_cons_le_delete c w x z
    have hins := lev_cons_cons_le_insert c w x z
    have hsub := lev_cons_cons_le_substitute c w x z
    rcases lev_cons_cons_cases d w x z with h | h | h | ⟨-, h⟩ <;> omega

/-- A bound of 1 between the distances of two texts to every third survives a common first character. -/
theorem lev_cons_le_lev_cons {x y : Text} (h : ∀ z, lev x z ≤ lev y z + 1) (c : Byte) (z : Text) :
    lev (c :: x) z ≤ lev (c :: y) z + 1 := by
  induction z with
  | nil => simpa using h []
  | cons w z ih =>
    have hwz := h (w :: z)
    have hz := h z
    rw [lev_cons_cons, lev_cons_cons]
    omega

theorem lev_append_le_lev_append {x y : Text} (h : ∀ z, lev x z ≤ lev y z + 1) (u z : Text) :
    lev (u ++ x) z ≤ lev (u ++ y) z + 1 := by
  induction u generalizing z with
  | nil => exact h z
  | cons c u ih => exact lev_cons_le_lev_cons ih c z

/-- One edit changes the distance to any text by at most 1. -/
theorem lev_le_of_edit {x y : Text} (h : Edit x y) (z : Text) : lev x z ≤ lev y z + 1 := by
  cases h with
  | insert u v c => exact lev_append_le_lev_append (le_lev_cons_left c v) u z
  | delete u v c => exact lev_append_le_lev_append (lev_cons_left_le c v) u z
  | substitute u v c d => exact lev_append_le_lev_append (lev_substitute_first_le c d v) u z

/-- `n` edits change the distance to any text by at most `n`. -/
theorem lev_le_of_edits {n : Nat} {x y : Text} (h : Edits n x y) (z : Text) : lev x z ≤ lev y z + n := by
  induction h with
  | none x => exact le_rfl
  | cons first _ ih => have := lev_le_of_edit first z; omega

theorem lev_le_count_of_edits {n : Nat} {x y : Text} (h : Edits n x y) : lev x y ≤ n := by
  simpa [lev_self] using lev_le_of_edits h y

/-! ### What follows -/

theorem lev_triangle (x y z : Text) : lev x z ≤ lev y z + lev x y := lev_le_of_edits (edits_lev x y) z

theorem lev_eq_zero_iff (x y : Text) : lev x y = 0 ↔ x = y := by
  constructor
  · intro h
    have hedits := edits_lev x y
    rw [h] at hedits
    cases hedits
    rfl
  · rintro rfl
    exact lev_self x

/-- By the triangle through the empty text. -/
theorem length_sub_length_le_lev (x y : Text) : x.length - y.length ≤ lev x y := by
  have := lev_triangle x y []
  rw [lev_nil_right, lev_nil_right] at this
  omega

end Sys2Proof.Machine
end

section
/-! PROOFS. The statements about the comparator's commands and its distance (43_comparator.md R180, R181, R183 to R185, R188,
R189). -/

namespace Sys2Proof.Proofs

open Sys2Proof.Machine Sys2Proof.Safety

/-- Settles O45: the word and its reserved bits from the encoding, and the three ways of `cmpLdf`. -/
theorem cmpLdfCopiesTheText : Obligations.CmpLdfCopiesTheText :=
  ⟨reservedBitsFault_cmpLdf, fun x => ⟨wordOf_selector (i := .cmpLdf x) rfl, fun _ =>
    ⟨exec_cmpLdf_of_idle, exec_cmpLdf_of_too_long, exec_cmpLdf_of_fits⟩⟩⟩

/-- Settles O46: `compare` read over the grammar, in the order format of the first, format of the second, block sizes. -/
theorem cmpRunAnswersTheComparison : Obligations.CmpRunAnswersTheComparison := by
  refine ⟨wordOf_encode .cmpRun, reservedBitsFault_cmpRun, fun s => ⟨fun ha => ?_, fun ha hb => ?_, ?_⟩⟩
  · rw [exec_cmpRun, compareTexts_of_first_malformed ha]
    rfl
  · rw [exec_cmpRun, compareTexts_of_second_malformed ha hb]
    rfl
  · intro d e r1 r2 q1 q2 ha hb
    rw [exec_cmpRun, compareTexts_of_signatures ha hb]
    refine ⟨fun hne => ?_, fun heq => ?_⟩
    · rw [if_neg hne]
      rfl
    · rw [if_pos heq]
      rfl

/-- Settles O48: the moves of the recurrence are `lev x y` edits, and `n` edits bring the distance down by at most `n`; the
lower bounds are the triangle through the empty text. -/
theorem levIsTheEditDistance : Obligations.LevIsTheEditDistance :=
  ⟨fun x y => ⟨edits_lev x y, fun _ => lev_le_count_of_edits⟩, fun x y =>
    ⟨lev_comm x y, lev_eq_zero_iff x y, lev_nil_right x, length_sub_length_le_lev x y,
      lev_comm y x ▸ length_sub_length_le_lev y x, lev_le_max_length x y⟩⟩

/-- Settles O43: the word and its reserved bits from the encoding, and the write of one entry of `CMP`. -/
theorem cmpClrEmptiesTheBuffer : Obligations.CmpClrEmptiesTheBuffer :=
  ⟨reservedBitsFault_cmpClr, fun x => ⟨wordOf_selector (i := .cmpClr x) rfl, exec_cmpClr x⟩⟩

/-- Settles O47: the answer is the comparison of the two buffers, which are the same in both states. -/
theorem cmpRunReadsOnlyItsOperands : Obligations.CmpRunReadsOnlyItsOperands := by
  intro s t hcmp
  refine ⟨_, _, exec_cmpRun s, ?_⟩
  rw [hcmp]
  exact exec_cmpRun t

end Sys2Proof.Proofs
end

section
/-! SUPPORT. `NOP`: what it leaves and answers, and its reserved bits (44_system.md R220). -/

namespace Sys2Proof.Machine

open Sys2Proof.Safety

/-- `NOP` answers `OK`, 0 after no update at all (44_system.md R220). -/
theorem exec_nop (s : State) : exec .nop s = .next (answered 0 0 s) := rfl

theorem reservedBitsFault_nop : ReservedBitsFault 0x00 0xFFFFFFFF := by
  refine reservedBitsFault_of_arguments fun i hop => ?_
  cases i with
  | nop => decide
  | _ => exact absurd hop (by simp [Instr.opcode])

end Sys2Proof.Machine
end

section
/-! PROOFS. The statement about `NOP` (44_system.md R220). -/

namespace Sys2Proof.Proofs

open Sys2Proof.Machine Sys2Proof.Safety

/-- Settles O11: the word from the encoding, its reserved bits because `NOP` alone has opcode 0 and its argument is 0, and the
next state from the answer alone. -/
theorem nopOnlyAnswers : Obligations.NopOnlyAnswers :=
  ⟨wordOf_encode .nop, reservedBitsFault_nop, exec_nop⟩

end Sys2Proof.Proofs
end

section
/-! SUPPORT. `ENG.STEP` outside an attempt, the statuses of `RDREG` and `CMP.RUN` (60_exceptions.md R233, R234, R237 to R239), and
what the status of a response tells of how its command ended (60_exceptions.md R230, R236). -/

namespace Sys2Proof.Machine

open Sys2Proof.Safety

/-- `ENG.STEP` with no engine (60_exceptions.md R238). -/
theorem exec_engStep_of_idle {s : State} (hest : s.est = .idle) (byte : Byte) :
    exec (.engStep byte) s = .next (faulted 9 s) := by
  have hstep : engStep Config.params byte s = faulted 9 s := by simpa [hest] using engStep_cases Config.params byte s
  exact congrArg _ hstep

/-- `ENG.STEP` with a complete signature (60_exceptions.md R239). -/
theorem exec_engStep_of_finalized {s : State} (hest : s.est = .finalized) (byte : Byte) :
    exec (.engStep byte) s = .next (faulted 10 s) := by
  have hstep : engStep Config.params byte s = faulted 10 s := by simpa [hest] using engStep_cases Config.params byte s
  exact congrArg _ hstep

/-- A number outside the register map is one 44_system.md R221 reserves. -/
theorem wellFormed_rdreg_of_ofNumber_eq_none {reg : BitVec 8} (h : Reg.ofNumber reg = none) :
    Instr.wellFormed (.rdreg reg) = false := by
  have hsome := ofNumber_isSome_iff reg
  rw [h] at hsome
  exact hsome.symm

/-- `compare` answers `OK` or one of its three error results (43_comparator.md R184). -/
theorem compareTexts_code (a b : Text) :
    (compareTexts a b).1.code = 0 ∨ (compareTexts a b).1.code = 2 ∨ (compareTexts a b).1.code = 3 ∨
      (compareTexts a b).1.code = 4 := by
  rcases compareTexts_cases a b with ⟨-, h⟩ | ⟨_, -, -, h⟩ | ⟨_, _, -, -, -, h⟩ | ⟨_, _, -, -, -, h⟩ <;> rw [h]
  · exact .inr (.inl rfl)
  · exact .inr (.inr (.inl rfl))
  · exact .inr (.inr (.inr rfl))
  · exact .inl rfl

/-- The status can be read off a response word (30_encoding.md R81). -/
theorem response_status_inj {st st' : BitVec 4} {d d' : Word} (h : response st d = response st' d') : st = st' := by
  have hword : st ++ d = st' ++ d' := by simpa only [response, Transfer.resp.injEq] using h
  have hnum := congrArg BitVec.toNat hword
  rw [toNat_append_eq_add, toNat_append_eq_add] at hnum
  exact BitVec.eq_of_toNat_eq (by omega)

/-- The status of a lone response says how the command ended: `OK` keeps the fault record, an error result keeps the whole
state, a fault is `faulted` (60_exceptions.md R230, R236). -/
theorem CommandEnd.of_status {i : Instr} {s t : State} (hend : CommandEnd i s t) {st : BitVec 4} {d : Word}
    (hsent : t.sent = [response st d]) :
    (st = 0 ∧ t.fault = s.fault ∧ t.fcause = s.fcause) ∨ (st ∈ [1#4, 2#4, 3#4, 4#4] ∧ t = answered st 0 s) ∨
      (st ∈ [8#4, 9#4, 10#4, 11#4] ∧ t = faulted st s) := by
  cases hend with
  | ok e u hfault hcause =>
    have hst : 0 = st := response_status_inj (List.singleton_inj.mp hsent)
    exact .inl ⟨hst.symm, hfault, hcause⟩
  | error code hcode =>
    obtain rfl : code = st := response_status_inj (List.singleton_inj.mp hsent)
    exact .inr (.inl ⟨hcode, rfl⟩)
  | fault code hcode =>
    obtain rfl : code = st := response_status_inj (List.singleton_inj.mp hsent)
    exact .inr (.inr ⟨hcode, rfl⟩)
  | text =>
    have hlast := congrArg List.getLast? hsent
    rw [List.getLast?_concat, List.getLast?_singleton, Option.some_inj] at hlast
    exact .inl ⟨(response_status_inj hlast).symm, rfl, rfl⟩

end Sys2Proof.Machine
end

section
/-! PROOFS. The statements about error results and faults (60_exceptions.md R230, R236, R238, R239). -/

namespace Sys2Proof.Proofs

open Sys2Proof.Machine Sys2Proof.Safety

/-- Settles O53: a command ends in one of the ways of `CommandEnd`, the status says which, and an illegal word is refused by
the same fault. -/
theorem refusedCommandsChangeOnlyTheRecord : Obligations.RefusedCommandsChangeOnlyTheRecord := by
  refine ⟨fun i s t st d hexec hsent => ?_, fun w e s hdecode => ?_⟩
  · have hend : CommandEnd i s t := by
      obtain ⟨t', hexec', hend⟩ := exec_commandEnd i s
      rw [hexec, Host.Outcome.next.injEq] at hexec'
      exact hexec' ▸ hend
    rcases hend.of_status hsent with ⟨rfl, hfault, hcause⟩ | ⟨hst, ht⟩ | ⟨hst, ht⟩
    · exact ⟨.inl rfl, fun h => absurd h (by decide), fun h => absurd h (by decide), fun _ => ⟨hfault, hcause⟩⟩
    · have hrange : ∀ c ∈ [1#4, 2#4, 3#4, 4#4], 1 ≤ c.toNat ∧ c.toNat ≤ 4 := by decide
      obtain ⟨hlow, hhigh⟩ := hrange st hst
      exact ⟨.inr (.inl ⟨hlow, hhigh⟩), fun _ => ht, fun h => by omega, fun _ => ht ▸ ⟨rfl, rfl⟩⟩
    · have hrange : ∀ c ∈ [8#4, 9#4, 10#4, 11#4], 8 ≤ c.toNat ∧ c.toNat ≤ 11 := by decide
      obtain ⟨hlow, hhigh⟩ := hrange st hst
      exact ⟨.inr (.inr ⟨hlow, hhigh⟩), fun h => by omega, fun _ => ht, fun h => by omega⟩
  · simp only [takeWord, hdecode, raiseFault_eq_faulted, FaultCode.code]

/-- Settles O30: the three engine commands fault, and each other command answers `OK` outside its listed exceptions. -/
theorem noEngineFaults : Obligations.NoEngineFaults := by
  refine fun s hest => ⟨exec_engStep_of_idle hest, exec_engFmt_of_idle hest, fun x => exec_cmpLdf_of_idle hest,
    fun i hstep hfmt hldf => ?_⟩
  cases i with
  | engStep byte => exact absurd rfl (hstep byte)
  | engFmt => exact absurd rfl hfmt
  | cmpLdf x => exact absurd rfl (hldf x)
  | rdreg reg =>
    rcases execRdreg_cases reg s with ⟨hnone, h⟩ | ⟨r, -, h⟩
    · exact ⟨_, 8, 0, h, rfl, .inr (.inr (.inr (.inl ⟨reg, rfl, wellFormed_rdreg_of_ofNumber_eq_none hnone, rfl⟩)))⟩
    · exact ⟨_, 0, _, h, rfl, .inl rfl⟩
  | engInit len =>
    by_cases hlen : len = 0
    · subst hlen
      exact ⟨_, 1, 0, exec_engInit_zero s, rfl, .inr (.inl ⟨rfl, rfl⟩)⟩
    · exact ⟨_, 0, _, exec_engInit_of_ne_zero hlen s, rfl, .inl rfl⟩
  | cmpPush x char =>
    rcases cmpPush_cases Config.params x char s with ⟨hfull, h⟩ | ⟨-, h⟩
    · exact ⟨_, 11, 0, congrArg Host.Outcome.next h, rfl, .inr (.inr (.inr (.inr ⟨x, char, rfl, hfull, rfl⟩)))⟩
    · exact ⟨_, 0, _, congrArg Host.Outcome.next h, rfl, .inl rfl⟩
  | cmpRun =>
    refine ⟨_, _, _, exec_cmpRun s, rfl, ?_⟩
    exact (compareTexts_code s.cmp[0] s.cmp[1]).imp_right fun herror => .inr (.inl ⟨rfl, herror⟩)
  | nop | rollRst | rollAdv _ | digRst _ | digUpd _ _ | digVal _ | cmpClr _ => exact ⟨_, 0, _, rfl, rfl, .inl rfl⟩

/-- Settles O29: of the ways of `engStep` only one starts in `Finalized`. -/
theorem stepAfterFinalisationFaults : Obligations.StepAfterFinalisationFaults :=
  fun _ byte hest => exec_engStep_of_finalized hest byte

end Sys2Proof.Proofs
end

section
/-! SUPPORT. The rows of the opcode table against the decoder: a word that agrees with a row under its mask is the word of a
command of that row (30_encoding.md R84, R93). -/

namespace Sys2Proof

/-- The word of every command agrees with its row of the table. -/
theorem tableRow_of_instr (i : Instr) : Laws.TableRow.Statement i := by
  cases i with
  | nop => exact Laws.TableRow.nop
  | rdreg reg => exact Laws.TableRow.rdreg reg
  | rollRst => exact Laws.TableRow.rollRst
  | rollAdv byte => exact Laws.TableRow.rollAdv byte
  | digRst k => exact Laws.TableRow.digRst k
  | digUpd k byte => exact Laws.TableRow.digUpd k byte
  | digVal k => exact Laws.TableRow.digVal k
  | engInit len => exact Laws.TableRow.engInit len
  | engStep byte => exact Laws.TableRow.engStep byte
  | engFmt => exact Laws.TableRow.engFmt
  | cmpClr x => exact Laws.TableRow.cmpClr x
  | cmpPush x char => exact Laws.TableRow.cmpPush x char
  | cmpLdf x => exact Laws.TableRow.cmpLdf x
  | cmpRun => exact Laws.TableRow.cmpRun

/-- A word that decodes to a command agrees with the command's row. -/
theorem row_of_decode {w : CmdWord} {i : Instr} (h : decode w = .ok i) :
    w &&& i.tableMask = i.tableMatch ∧ (i.tableMatch, i.tableMask) ∈ opcodeRows :=
  encode_of_decode h ▸ tableRow_of_instr i

/-- A word whose fields are a command's decodes to it. -/
theorem decode_of_fields {w : CmdWord} {i : Instr} (hop : opField w = i.opcode) (harg : argField w = i.argument) :
    decode w = .ok i := by
  rw [← opField_append_argField w, hop, harg]
  exact decode_encode i

/-- Under a mask over the whole opcode and part of the argument, agreeing is having the opcode and zeros under the mask. -/
theorem fields_of_and_eq {w : CmdWord} {op : BitVec 8} {mask : Word} (h : w &&& (0xFF#8 ++ mask) = op ++ 0#32) :
    opField w = op ∧ argField w &&& mask = 0#32 := by
  rw [← opField_append_argField w, BitVec.and_append] at h
  have hop := congrArg opField h
  have harg := congrArg argField h
  rw [opField_append, opField_append] at hop
  rw [argField_append, argField_append] at harg
  exact ⟨(BitVec.and_allOnes (x := opField w)).symm.trans hop, harg⟩

/-- Bits that are 0 under a mask of ones from `start` are 0. -/
theorem extractLsb'_eq_zero_of_and_eq {arg mask : Word} {start len : Nat} (h : arg &&& mask = 0#32)
    (hmask : mask.extractLsb' start len = BitVec.allOnes len) : arg.extractLsb' start len = 0#len := by
  have hbits := congrArg (BitVec.extractLsb' start len) h
  rw [BitVec.extractLsb'_and, hmask, BitVec.and_allOnes] at hbits
  simpa using hbits

/-- Some command of the row with this `match` and `mask` is what the word decodes to. -/
def DecodesToRow (w : CmdWord) (row : CmdWord × CmdWord) : Prop :=
  ∃ i, decode w = .ok i ∧ i.tableMatch = row.1 ∧ i.tableMask = row.2

section formats

variable {w : CmdWord}

/-- Agreement with a row of format `A0`. -/
theorem decodesToRow_A0 (i : Instr) (harg : i.argument = 0#32) (hmatch : i.tableMatch = i.opcode ++ 0#32)
    (hmask : i.tableMask = 0xFFFFFFFFFF#40) (h : w &&& 0xFFFFFFFFFF#40 = i.opcode ++ 0#32) :
    DecodesToRow w (i.opcode ++ 0#32, 0xFFFFFFFFFF#40) := by
  obtain ⟨hop, hzero⟩ := fields_of_and_eq (mask := 0xFFFFFFFF#32) h
  have hw : argField w = 0#32 := (BitVec.and_allOnes (x := argField w)).symm.trans hzero
  exact ⟨i, decode_of_fields hop (hw.trans harg.symm), hmatch, hmask⟩

/-- Agreement with a row of format `AR` or `AB`. -/
theorem decodesToRow_AB (op : BitVec 8) (f : Byte → Instr)
    (hf : ∀ b, (f b).opcode = op ∧ (f b).argument = 0#24 ++ b ∧ (f b).tableMatch = op ++ 0#32
      ∧ (f b).tableMask = 0xFFFFFFFF00#40) (h : w &&& 0xFFFFFFFF00#40 = op ++ 0#32) :
    DecodesToRow w (op ++ 0#32, 0xFFFFFFFF00#40) := by
  obtain ⟨hw, hzero⟩ := fields_of_and_eq (mask := 0xFFFFFF00#32) h
  have hbits := zeros_append_byteField _ (extractLsb'_eq_zero_of_and_eq hzero (by decide))
  obtain ⟨hop, harg, hrow⟩ := hf (byteField (argField w))
  exact ⟨_, decode_of_fields (hw.trans hop.symm) (hbits.symm.trans harg.symm), hrow⟩

/-- Agreement with a row of format `AK`. -/
theorem decodesToRow_AK (op : BitVec 8) (f : Fin 2 → Instr)
    (hf : ∀ k, (f k).opcode = op ∧ (f k).argument = 0#31 ++ selectorBit k ∧ (f k).tableMatch = op ++ 0#32
      ∧ (f k).tableMask = 0xFFFFFFFFFE#40) (h : w &&& 0xFFFFFFFFFE#40 = op ++ 0#32) :
    DecodesToRow w (op ++ 0#32, 0xFFFFFFFFFE#40) := by
  obtain ⟨hw, hzero⟩ := fields_of_and_eq (mask := 0xFFFFFFFE#32) h
  have hbits := zeros_append_selector _ (extractLsb'_eq_zero_of_and_eq hzero (by decide))
  obtain ⟨hop, harg, hrow⟩ := hf (selector ((argField w).getLsbD 0))
  exact ⟨_, decode_of_fields (hw.trans hop.symm) (hbits.symm.trans harg.symm), hrow⟩

/-- Agreement with a row of format `AKB`. -/
theorem decodesToRow_AKB (op : BitVec 8) (f : Fin 2 → Byte → Instr)
    (hf : ∀ k b, (f k b).opcode = op ∧ (f k b).argument = 0#23 ++ (selectorBit k ++ b) ∧ (f k b).tableMatch = op ++ 0#32
      ∧ (f k b).tableMask = 0xFFFFFFFE00#40) (h : w &&& 0xFFFFFFFE00#40 = op ++ 0#32) :
    DecodesToRow w (op ++ 0#32, 0xFFFFFFFE00#40) := by
  obtain ⟨hw, hzero⟩ := fields_of_and_eq (mask := 0xFFFFFE00#32) h
  have hbits := zeros_append_selector_byteField _ (extractLsb'_eq_zero_of_and_eq hzero (by decide))
  obtain ⟨hop, harg, hrow⟩ := hf (selector ((argField w).getLsbD 8)) (byteField (argField w))
  exact ⟨_, decode_of_fields (hw.trans hop.symm) (hbits.symm.trans harg.symm), hrow⟩

/-- Agreement with the row of `ENG.INIT`, whose argument has no reserved bit. -/
theorem decodesToRow_engInit (h : w &&& 0xFF00000000#40 = 0x30#8 ++ 0#32) :
    DecodesToRow w (0x30#8 ++ 0#32, 0xFF00000000#40) := by
  obtain ⟨hop, -⟩ := fields_of_and_eq (mask := 0#32) h
  exact ⟨.engInit (argField w), decode_of_fields hop rfl, rfl, rfl⟩

end formats

/-- A word that agrees with a row decodes to a command of that row. -/
theorem decodesToRow_of_and_eq (w : CmdWord) : ∀ row ∈ opcodeRows, w &&& row.2 = row.1 → DecodesToRow w row := by
  simp only [opcodeRows, List.forall_mem_cons]
  exact ⟨decodesToRow_A0 .nop rfl rfl rfl,
    decodesToRow_AB 0x01 .rdreg fun _ => ⟨rfl, rfl, rfl, rfl⟩,
    decodesToRow_A0 .rollRst rfl rfl rfl,
    decodesToRow_AB 0x11 .rollAdv fun _ => ⟨rfl, rfl, rfl, rfl⟩,
    decodesToRow_AK 0x20 .digRst fun _ => ⟨rfl, rfl, rfl, rfl⟩,
    decodesToRow_AKB 0x21 .digUpd fun _ _ => ⟨rfl, rfl, rfl, rfl⟩,
    decodesToRow_AK 0x22 .digVal fun _ => ⟨rfl, rfl, rfl, rfl⟩,
    decodesToRow_engInit,
    decodesToRow_AB 0x31 .engStep fun _ => ⟨rfl, rfl, rfl, rfl⟩,
    decodesToRow_A0 .engFmt rfl rfl rfl,
    decodesToRow_AK 0x40 .cmpClr fun _ => ⟨rfl, rfl, rfl, rfl⟩,
    decodesToRow_AKB 0x41 .cmpPush fun _ _ => ⟨rfl, rfl, rfl, rfl⟩,
    decodesToRow_AK 0x42 .cmpLdf fun _ => ⟨rfl, rfl, rfl, rfl⟩,
    decodesToRow_A0 .cmpRun rfl rfl rfl, nofun⟩

/-- A word that agrees with no row is illegal. -/
theorem decode_of_no_row {w : CmdWord} (h : ∀ row ∈ opcodeRows, w &&& row.2 ≠ row.1) : ∃ e, decode w = .error e := by
  cases hd : decode w with
  | error e => exact ⟨e, rfl⟩
  | ok i =>
    obtain ⟨hmatch, hmem⟩ := row_of_decode hd
    exact absurd hmatch (h _ hmem)

/-- The command of a table word is the decoded word of its bits (log entry 16). -/
theorem decode_of_decodeTableWord {nbits bits : Nat} {i : Instr} (h : decodeTableWord nbits bits = some i) :
    decode (BitVec.ofNat 40 (bits % 2 ^ nbits)) = .ok i := by
  unfold decodeTableWord at h
  split at h
  next j hj => rw [hj, Option.some_inj.mp h]
  next => cases h

end Sys2Proof
end

section
/-! SUPPORT. One step by the host's next action, while `rst` is asserted and while it is not (70_reset_and_hazards.md R260,
20_memory.md R76). -/

namespace Sys2Proof.Machine

open Sys2Proof.Safety

variable {s : State} {rest : List HostInput}

/-- A legal word at the port is performed. -/
theorem step_of_legal_word {w : CmdWord} {i : Instr} (hr : s.rst = false) (hi : s.inputs = .cmd w :: rest)
    (hd : decode w = .ok i) : step s = exec i { s with inputs := rest } := by
  simp only [step, fetch_of_ready _ s hr, fetchReady, hi, takeWord, hd]

/-- An illegal word at the port faults `F_ILLEGAL`. -/
theorem step_of_illegal_word {w : CmdWord} {e : DecodeError} (hr : s.rst = false) (hi : s.inputs = .cmd w :: rest)
    (hd : decode w = .error e) : step s = .next (faulted 8 { s with inputs := rest }) := by
  simp only [step, fetch_of_ready _ s hr, fetchReady, hi, takeWord, hd, raiseFault_eq_faulted, FaultCode.code]

/-- With no action of the host the block waits. -/
theorem step_of_no_input (hr : s.rst = false) (hi : s.inputs = []) : step s = .next { s with sent := [] } := by
  simp only [step, fetch_of_ready _ s hr, fetchReady, hi]

/-- While `rst` is asserted, a step with no action of the host leaves the reset state. -/
theorem step_of_held_no_input (hr : s.rst = true) (hi : s.inputs = []) :
    step s = .next { State.reset with rst := true } := by
  simp only [step_of_held s hr, fetchHeld, hi, assertReset]
  rfl

/-- While `rst` is asserted, any action but the release leaves the reset state. -/
theorem step_of_held_input {a : HostInput} (hr : s.rst = true) (ha : a ≠ .release) (hi : s.inputs = a :: rest) :
    step s = .next { State.reset with rst := true, inputs := rest } := by
  rw [step_of_held s hr]
  cases a with
  | cmd w => simp only [fetchHeld, hi]; rfl
  | rst => simp only [fetchHeld, hi]; rfl
  | rstDuring w n => simp only [fetchHeld, hi]; rfl
  | release => exact absurd rfl ha

/-- The release leaves the reset state, ready. -/
theorem step_of_release (hr : s.rst = true) (hi : s.inputs = .release :: rest) :
    step s = .next { State.reset with inputs := rest } := by
  simp only [step_of_held s hr, fetchHeld, hi]
  rfl

/-- Asserting `rst` between commands. -/
theorem step_of_rst (hr : s.rst = false) (hi : s.inputs = .rst :: rest) :
    step s = .next { State.reset with rst := true, inputs := rest } := by
  simp only [step, fetch_of_ready _ s hr, fetchReady, hi]
  rfl

/-- Asserting `rst` during a command. -/
theorem step_of_rstDuring {w : CmdWord} {n : Nat} (hr : s.rst = false) (hi : s.inputs = .rstDuring w n :: rest) :
    step s = .next { State.reset with rst := true, inputs := rest, sent := ((textOf w s).take n).map .txt } := by
  simp only [step, fetch_of_ready _ s hr, fetchReady, hi]
  rfl

end Sys2Proof.Machine
end

section
/-! PROOFS. The statements about words and about a step (30_encoding.md sections 1 to 5, 70_reset_and_hazards.md section 1). -/

namespace Sys2Proof.Proofs

open Sys2Proof.Machine Sys2Proof.Safety

/-- Settles O1, by the command's format. -/
theorem decodeInvertsEncode : Obligations.DecodeInvertsEncode := decode_encode

/-- Settles O2: the decoder reads the two fields, and a word is its two fields. -/
theorem encodeInvertsDecode : Obligations.EncodeInvertsDecode := fun _ _ => encode_of_decode

/-- Settles O3: one way by the command's encoding, the other row by row, where zeros under the mask leave the operands. -/
theorem decodeIsMatchAndMask : Obligations.DecodeIsMatchAndMask := ⟨fun _ _ => row_of_decode, decodesToRow_of_and_eq⟩

/-- Settles O4: the legal words are encodings, and the decoder evaluates on the illegal ones. -/
theorem listedWordsDecodeAsListed : Obligations.ListedWordsDecodeAsListed :=
  ⟨decode_encode .nop, decode_encode (.rdreg 0x04), decode_encode (.rollAdv 255), decode_encode (.digVal 1),
    decode_encode (.digUpd 1 0xFF), decode_encode (.engInit 4294967295), decode_encode (.engStep 0x68),
    decode_encode (.cmpPush 1 0x33), decode_encode (.cmpLdf 1), rfl, rfl, rfl⟩

/-- Settles O5: what a step does with a legal word. -/
theorem stepPerformsDecodedCommand : Obligations.StepPerformsDecodedCommand := fun _ _ _ _ => step_of_legal_word

/-- Settles O6: the placed word is the host's next action, with `rst` released. -/
theorem placedWordIsPerformed : Obligations.PlacedWordIsPerformed := by
  intro s nbits bits i h
  exact step_of_legal_word (s := s.withFetchWord nbits bits) rfl rfl (decode_of_decodeTableWord h)

/-- Settles O7: a word that agrees with no row decodes to no command. -/
theorem illegalWordFaults : Obligations.IllegalWordFaults := by
  intro s w rest hr hi hrows
  obtain ⟨e, he⟩ := decode_of_no_row hrows
  exact step_of_illegal_word hr hi he

/-- Settles O9: by the level of `rst`; what is out of an abandoned command's text is its first characters, at most
`n`. -/
theorem rstRestoresResetState : Obligations.RstRestoresResetState := by
  refine ⟨fun s rest hi => ?_, fun s w n rest hi => ?_⟩
  · cases hr : s.rst with
    | true => exact step_of_held_input hr (by simp) hi
    | false => exact step_of_rst hr hi
  · cases hr : s.rst with
    | true => exact ⟨[], Nat.zero_le n, step_of_held_input hr (by simp) hi⟩
    | false => exact ⟨_, List.length_take_le n _, step_of_rstDuring hr hi⟩

/-- Settles O10: what a step does with no action of the host. -/
theorem waitingChangesNothing : Obligations.WaitingChangesNothing := fun _ => step_of_no_input

/-- Settles O58: what a step does while `rst` is asserted, by the host's next action. -/
theorem heldResetAcceptsNothing : Obligations.HeldResetAcceptsNothing :=
  fun _ hr => ⟨step_of_held_no_input hr, fun _ _ ha hi => step_of_held_input hr ha hi, fun _ => step_of_release hr⟩

end Sys2Proof.Proofs
end

section
/-! SUPPORT. What a command does to the state, said once for all fourteen: the effects as one relation, whose frames and
invariants are then a case analysis, and the invariants of a step from those of an effect. -/

namespace Sys2Proof.Machine

open Sys2Proof.Safety

/-- The effects a command can have (00_scope.md R5): only an answer, a fault, a write of a comparator buffer, of the rolling
registers, of a digest word, and the four ways of an attempt: its start, a step within it, its last step, its restart. -/
inductive CommandEffect : Instr → State → State → Prop where
  | quiet {i : Instr} {s : State} (sent : List Transfer) : CommandEffect i s { s with sent := sent }
  | fault {i : Instr} {s : State} (code : BitVec 4) (hcode : code ∈ [8#4, 9#4, 10#4, 11#4]) :
    CommandEffect i s (faulted code s)
  | buffer {i : Instr} {s : State} (x : Fin 2) (text : Text) (d : Word) (hfits : text.length ≤ Config.params.cmpCap) :
    CommandEffect i s (answered 0 d (setCmp x text s))
  | rollReset {s : State} : CommandEffect .rollRst s (answered 0 0 (rollReset s))
  | advance {s : State} (b : Byte) : CommandEffect (.rollAdv b) s (answered 0 (sumView (advance b s)) (advance b s))
  | digestReset {s : State} (k : Fin 2) : CommandEffect (.digRst k) s (answered 0 0 (digestReset Config.params k s))
  | digestUpdate {s : State} (k : Fin 2) (b : Byte) : CommandEffect (.digUpd k b) s (answered 0 0 (digestUpdate k b s))
  | start {s : State} (len : Word) (hlen : len ≠ 0) :
    CommandEffect (.engInit len) s
      (answered 0 (bs0 len) { attemptReset Config.params { s with bs := bs0 len, len := len } with est := .running })
  | within {s : State} (b : Byte) (trig1 trig2 : Bool)
    (htrig1 : trigger1 (sumView (Machine.advance b s)) s.bs = trig1)
    (htrig2 : trigger2 (sumView (Machine.advance b s)) s.bs = trig2)
    (hest : s.est = .running) (hmid : s.pos + 1 ≠ s.len)
    (hroom0 : trig1 = true → s.sig[0].length < Config.params.sigCap)
    (hroom1 : trig2 = true → s.sig[1].length < Config.params.sigCap) :
    CommandEffect (.engStep b) s
      (answered 0 (stepReport 0 trig1 trig2)
        { Machine.advance b s with
          pos := s.pos + 1
          acc := #v[if trig1 then Config.params.digestSeed else mulXor s.acc[0] b,
                    if trig2 then Config.params.digestSeed else mulXor s.acc[1] b]
          sig := #v[if trig1 then s.sig[0] ++ [ch (mulXor s.acc[0] b)] else s.sig[0],
                    if trig2 then s.sig[1] ++ [ch (mulXor s.acc[1] b)] else s.sig[1]] })
  | finalise {s : State} (b : Byte) (hest : s.est = .running) (hlast : s.pos + 1 = s.len)
    (hroom0 : s.sig[0].length < Config.params.sigCap) (hroom1 : s.sig[1].length < Config.params.sigCap)
    (hend : 31 ≤ s.sig[0].length ∨ s.bs = 3) :
    CommandEffect (.engStep b) s
      (answered 0 2
        { s with
          pos := s.len, est := .finalized
          sig := #v[s.sig[0] ++ [ch s.acc[0]], s.sig[1] ++ [ch s.acc[1]]] })
  | restart {s : State} (b : Byte) (hest : s.est = .running) (hlast : s.pos + 1 = s.len) (hbs : s.bs ≠ 3) :
    CommandEffect (.engStep b) s (answered 0 1 (attemptReset Config.params { s with bs := s.bs / 2 }))

/-- An end of an attempt that goes through has room in both halves (42_engine.md R156). -/
theorem room_of_last {p : Params} {byte : Byte} {s : State} (hlast : s.pos + 1 = s.len)
    (h : wouldOverflow p byte s = false) : s.sig[0].length < p.sigCap ∧ s.sig[1].length < p.sigCap := by
  rw [wouldOverflow, if_pos hlast, Bool.or_eq_false_iff] at h
  exact ⟨(sigFull_eq_false_iff p 0 s).mp h.1, (sigFull_eq_false_iff p 1 s).mp h.2⟩

/-- A step within an attempt that goes through has room under each trigger (42_engine.md R156). -/
theorem room_of_mid {p : Params} {byte : Byte} {s : State} (hmid : s.pos + 1 ≠ s.len)
    (h : wouldOverflow p byte s = false) :
    (trigger1 (sumView (advance byte s)) s.bs = true → s.sig[0].length < p.sigCap) ∧
      (trigger2 (sumView (advance byte s)) s.bs = true → s.sig[1].length < p.sigCap) := by
  rw [wouldOverflow, if_neg hmid, Bool.or_eq_false_iff, Bool.and_eq_false_imp, Bool.and_eq_false_imp] at h
  exact ⟨fun ht => (sigFull_eq_false_iff p 0 s).mp (h.1 ht), fun ht => (sigFull_eq_false_iff p 1 s).mp (h.2 ht)⟩

variable (s : State)

theorem engStep_commandEffect (b : Byte) : CommandEffect (.engStep b) s (engStep Config.params b s) := by
  rcases engStep_cases Config.params b s with ⟨-, h⟩ | ⟨-, h⟩ | ⟨-, -, h⟩ | ⟨hest, hroom, hlast, h⟩ |
    ⟨hest, hroom, hmid, h⟩ <;> rw [h]
  · exact .fault 9 (by decide)
  · exact .fault 10 (by decide)
  · exact .fault 11 (by decide)
  · obtain ⟨hroom0, hroom1⟩ := room_of_last hlast hroom
    rcases endOfAttempt_cases Config.params { s with pos := s.pos + 1 } with ⟨hend, h⟩ | ⟨-, hbs, h⟩
    · rw [h, emit_both, hlast]
      exact .finalise b hest hlast hroom0 hroom1 hend
    · rw [h, emit_both, attemptReset_eq]
      have heffect := CommandEffect.restart b hest hlast hbs
      rw [attemptReset_eq] at heffect
      exact heffect
  · obtain ⟨hroom0, hroom1⟩ := room_of_mid hmid hroom
    rw [midAttempt_eq _ _ _ rfl rfl]
    exact .within b _ _ rfl rfl hest hmid hroom0 hroom1

theorem cmpPush_commandEffect (x : Fin 2) (c : Byte) : CommandEffect (.cmpPush x c) s (cmpPush Config.params x c s) := by
  rcases cmpPush_cases Config.params x c s with ⟨-, h⟩ | ⟨hroom, h⟩ <;> rw [h]
  · exact .fault 11 (by decide)
  · exact .buffer x _ _ (by simpa using hroom)

theorem cmpLdf_commandEffect (x : Fin 2) : CommandEffect (.cmpLdf x) s (cmpLdf Config.params x s) := by
  rcases cmpLdf_cases Config.params x s with ⟨-, h⟩ | ⟨-, -, h⟩ | ⟨-, hfits, h⟩ <;> rw [h]
  · exact .fault 9 (by decide)
  · exact .fault 11 (by decide)
  · exact .buffer x _ _ hfits

variable {s} {t : State}

/-- Every command has one of these effects. -/
theorem commandEffect_of_exec {i : Instr} (h : exec i s = .next t) : CommandEffect i s t := by
  obtain ⟨u, hexec, heffect⟩ : ∃ u, exec i s = .next u ∧ CommandEffect i s u := by
    cases i with
    | rdreg reg =>
      rcases execRdreg_cases reg s with ⟨-, h⟩ | ⟨r, -, h⟩
      · exact ⟨_, h, .fault 8 (by decide)⟩
      · exact ⟨_, h, .quiet _⟩
    | engInit len =>
      by_cases hlen : len = 0
      · subst hlen; exact ⟨_, exec_engInit_zero s, .quiet _⟩
      · exact ⟨_, exec_engInit_of_ne_zero hlen s, .start len hlen⟩
    | engFmt =>
      rcases engFmt_cases s with ⟨-, h⟩ | ⟨-, h⟩
      · exact ⟨_, congrArg Host.Outcome.next h, .fault 9 (by decide)⟩
      · exact ⟨_, congrArg Host.Outcome.next h, .quiet _⟩
    | engStep b => exact ⟨_, rfl, engStep_commandEffect s b⟩
    | cmpClr x => exact ⟨_, exec_cmpClr x s, .buffer x [] 0 (Nat.zero_le _)⟩
    | cmpPush x c => exact ⟨_, rfl, cmpPush_commandEffect s x c⟩
    | cmpLdf x => exact ⟨_, rfl, cmpLdf_commandEffect s x⟩
    | rollRst => exact ⟨_, exec_rollRst s, .rollReset⟩
    | rollAdv b => exact ⟨_, exec_rollAdv b s, .advance b⟩
    | digRst k => exact ⟨_, exec_digRst k s, .digestReset k⟩
    | digUpd k b => exact ⟨_, exec_digUpd k b s, .digestUpdate k b⟩
    | nop | digVal _ | cmpRun => exact ⟨_, rfl, .quiet _⟩
  rw [h, Host.Outcome.next.injEq] at hexec
  exact hexec ▸ heffect

/-- No command touches the level of `rst`. -/
theorem CommandEffect.rst_eq {i : Instr} (h : CommandEffect i s t) : t.rst = s.rst := by cases h <;> rfl

/-- A command records a fault on top of none, and never clears or replaces one (60_exceptions.md R244). -/
theorem CommandEffect.faultRecord {i : Instr} (h : CommandEffect i s t) :
    (t.fault = s.fault ∧ t.fcause = s.fcause) ∨
      (t.fault = true ∧ ∃ code ∈ [8#4, 9#4, 10#4, 11#4], t.fcause = if s.fault = true then s.fcause else code) := by
  cases h with
  | fault code hcode => exact .inr ⟨rfl, code, hcode, rfl⟩
  | quiet | buffer | rollReset | advance | digestReset | digestUpdate | start | within | finalise | restart =>
    exact .inl ⟨rfl, rfl⟩

/-- What holds at reset, whatever stands on the pins, and is kept by every effect of a command, is kept by every step. -/
theorem step_keeps {P : State → Prop}
    (hpins : ∀ (s : State) (rst : Bool) (inputs : List HostInput) (sent : List Transfer), P s →
      P { s with rst := rst, inputs := inputs, sent := sent })
    (hreset : P State.reset) (heffect : ∀ (i : Instr) (s t : State), CommandEffect i s t → P s → P t)
    (hs : P s) (hstep : step s = .next t) : P t := by
  rcases step_cases s with ⟨rest, hr, -, h⟩ | ⟨_, rest, i, hr, -, -, h⟩ | ⟨_, rest, _, hr, -, -, h⟩ |
    ⟨rest, text, -, h⟩ | ⟨rest, -, -, h⟩ <;> rw [h] at hstep
  case inr.inl => exact heffect i _ t (commandEffect_of_exec hstep) (hpins s s.rst rest s.sent hs)
  all_goals cases hstep
  · exact hpins s s.rst rest [] hs
  · exact heffect .nop _ _ (.fault 8 (by decide)) (hpins s s.rst rest s.sent hs)
  · exact hpins State.reset true rest _ hreset
  · exact hpins State.reset State.reset.rst rest State.reset.sent hreset

end Sys2Proof.Machine
end

section
/-! PROOFS. The statements about what a command leaves unchanged, the fault record, and the outputs (10_state.md section 4,
42_engine.md section 1, 60_exceptions.md section 3, 30_encoding.md section 1). -/

namespace Sys2Proof.Proofs

open Sys2Proof.Machine Sys2Proof.Safety

/-- Settles O38: of the effects only those of `ENG.INIT` and `ENG.STEP` write an engine register or a half. -/
theorem onlyInitAndStepWriteTheEngine : Obligations.OnlyInitAndStepWriteTheEngine := by
  intro i s t hinit hstep hexec
  cases commandEffect_of_exec hexec with
  | start len => exact absurd rfl (hinit len)
  | within b | finalise b | restart b => exact absurd rfl (hstep b)
  | quiet | fault | buffer | rollReset | advance | digestReset | digestUpdate => exact ⟨rfl, rfl, rfl, rfl, rfl⟩

/-- Settles O39: the start of an attempt enters `Running`, its last step enters `Finalized`, and no other effect writes
`EST`. -/
theorem engineTransitionsAreTheListed : Obligations.EngineTransitionsAreTheListed := by
  intro i s t hexec
  cases commandEffect_of_exec hexec with
  | start len hlen => exact ⟨nofun, fun _ => .inr ⟨len, hlen, rfl⟩, nofun⟩
  | finalise b hest hlast _ _ hend =>
    exact ⟨nofun, nofun, fun _ => .inr ⟨hest, b, rfl, hlast, hend.imp_left Nat.succ_le_succ⟩⟩
  | quiet | fault | buffer | rollReset | advance | digestReset | digestUpdate | within | restart =>
    exact ⟨id, .inl, .inl⟩

/-- Settles O40: the effects of `ENG.STEP` on an attempt need a running engine, and the others are excepted or write a
comparator buffer. -/
theorem finalizedEngineIsImmutable : Obligations.FinalizedEngineIsImmutable := by
  intro i s t hfin hinit hrollRst hrollAdv hdigRst hdigUpd hexec
  cases commandEffect_of_exec hexec with
  | start len => exact absurd rfl (hinit len)
  | rollReset => exact absurd rfl hrollRst
  | advance b => exact absurd rfl (hrollAdv b)
  | digestReset k => exact absurd rfl (hdigRst k)
  | digestUpdate k b => exact absurd rfl (hdigUpd k b)
  | within _ _ _ _ _ hest | finalise _ hest | restart _ hest => rw [hfin] at hest; cases hest
  | quiet | fault | buffer => exact ⟨rfl, rfl, rfl, rfl, rfl, rfl, rfl, rfl, rfl, rfl, rfl⟩

/-- Settles O54: a command and an illegal word keep a set record; every other step waits, or has `rst`. -/
theorem onlyResetClearsTheFaultRecord : Obligations.OnlyResetClearsTheFaultRecord := by
  intro s t hfault hstep
  rcases step_cases s with ⟨rest, -, -, h⟩ | ⟨_, rest, i, -, -, -, h⟩ | ⟨_, rest, _, -, -, -, h⟩ |
    ⟨rest, text, hrst, -⟩ | ⟨rest, hrst, -, -⟩
  · rw [h] at hstep
    cases hstep
    exact .inl ⟨hfault, rfl⟩
  · rw [h] at hstep
    rcases (commandEffect_of_exec hstep).faultRecord with ⟨hf, hc⟩ | ⟨hf, code, -, hc⟩
    · exact .inl ⟨hf.trans hfault, hc⟩
    · exact .inl ⟨hf, hc.trans (if_pos hfault)⟩
  · rw [h] at hstep
    cases hstep
    exact .inl ⟨rfl, if_pos hfault⟩
  · rcases hrst with hr | hi | ⟨w, n, hi⟩
    · exact .inr (.inl hr)
    · exact .inr (.inr (.inl ⟨rest, hi⟩))
    · exact .inr (.inr (.inr ⟨w, n, rest, hi⟩))
  · exact .inr (.inl hrst)

/-- Settles O59: `rst` is asserted only after a step that leaves the reset state, and released only by the release. -/
theorem outputsShowResetWhileHeld : Obligations.OutputsShowResetWhileHeld := by
  intro s t hstep
  rcases step_cases s with ⟨rest, hr, -, h⟩ | ⟨_, rest, i, hr, -, -, h⟩ | ⟨_, rest, _, hr, -, -, h⟩ |
    ⟨rest, text, -, h⟩ | ⟨rest, hr, -, h⟩ <;> rw [h] at hstep
  case inr.inl =>
    have ht : t.rst = false := (commandEffect_of_exec hstep).rst_eq.trans hr
    simp [ht, hr]
  all_goals cases hstep
  · simp [hr]
  · simp [faulted, hr]
  · exact ⟨fun _ => ⟨rfl, rfl, rfl, rfl, rfl⟩, nofun⟩
  · exact ⟨nofun, fun _ _ => ⟨rfl, rfl⟩⟩

end Sys2Proof.Proofs
end

section
/-! SUPPORT. The rolling identities under an advance (10_state.md R26), and the window as the history of the bytes advanced
(40_rolling.md, 'Closed form of the checksum'). -/

namespace Sys2Proof.Machine

open Sys2Proof.Safety

theorem zext_toNat (b : Byte) : (zext b).toNat = b.toNat := by
  have := b.isLt
  rw [zext, BitVec.toNat_setWidth]
  omega

/-- The bytes of before, one place older, and the new byte in front. -/
theorem recentBytes_advance (b : Byte) (s : State) :
    recentByte (advance b s) 1 = b ∧ recentByte (advance b s) 2 = recentByte s 1 ∧
      recentByte (advance b s) 3 = recentByte s 2 ∧ recentByte (advance b s) 4 = recentByte s 3 ∧
      recentByte (advance b s) 5 = recentByte s 4 ∧ recentByte (advance b s) 6 = recentByte s 5 ∧
      recentByte (advance b s) 7 = recentByte s 6 := by
  have hold (j : Nat) := recentByte_advance_succ b s j
  exact ⟨recentByte_advance_one b s, hold 1 (by omega) (by omega), hold 2 (by omega) (by omega),
    hold 3 (by omega) (by omega), hold 4 (by omega) (by omega), hold 5 (by omega) (by omega), hold 6 (by omega) (by omega)⟩

/-- The plain sum gains the new byte and loses the one that leaves the window. -/
theorem plainSum_advance (b : Byte) (s : State) :
    plainSum (recentByte (advance b s)) + (recentByte s 7).toNat = plainSum (recentByte s) + b.toNat := by
  obtain ⟨e1, e2, e3, e4, e5, e6, e7⟩ := recentBytes_advance b s
  simp only [plainSum, e1, e2, e3, e4, e5, e6, e7]
  omega

/-- The weighted sum loses every byte once and gains the new one seven times. -/
theorem weightedSum_advance (b : Byte) (s : State) :
    weightedSum (recentByte (advance b s)) + plainSum (recentByte s) = weightedSum (recentByte s) + 7 * b.toNat := by
  obtain ⟨e1, e2, e3, e4, e5, e6, e7⟩ := recentBytes_advance b s
  simp only [plainSum, weightedSum, e1, e2, e3, e4, e5, e6, e7]
  omega

/-- The shift by 5 ages every byte of the accumulator and drops the oldest. -/
theorem shiftXor_advance (b : Byte) (s : State) :
    shiftXor (recentByte (advance b s)) = (shiftXor (recentByte s) <<< 5) ^^^ zext b := by
  obtain ⟨e1, e2, e3, e4, e5, e6, e7⟩ := recentBytes_advance b s
  have hdrop : zext (recentByte s 7) <<< (30 + 5) = 0#32 := BitVec.shiftLeft_eq_zero (by omega)
  simp only [shiftXor, e1, e2, e3, e4, e5, e6, e7, BitVec.shiftLeft_xor_distrib, ← BitVec.shiftLeft_add, hdrop]
  simp only [BitVec.xor_zero, BitVec.xor_comm _ (zext b), BitVec.xor_assoc]

theorem plainSum_lt (b : Nat → Byte) : plainSum b < 7 * 256 := by
  have := (b 1).isLt; have := (b 2).isLt; have := (b 3).isLt; have := (b 4).isLt
  have := (b 5).isLt; have := (b 6).isLt; have := (b 7).isLt
  simp only [plainSum]
  omega

theorem weightedSum_lt (b : Nat → Byte) : weightedSum b < 28 * 256 := by
  have := (b 1).isLt; have := (b 2).isLt; have := (b 3).isLt; have := (b 4).isLt
  have := (b 5).isLt; have := (b 6).isLt; have := (b 7).isLt
  simp only [weightedSum]
  omega

/-- An advance keeps the rolling identities (10_state.md R26). -/
theorem rollInv_advance (b : Byte) {s : State} (h : RollInv s) : RollInv (advance b s) := by
  obtain ⟨h1, h2, h3⟩ := h
  have hplain := plainSum_advance b s
  have hweighted := weightedSum_advance b s
  have := plainSum_lt (recentByte s)
  have := weightedSum_lt (recentByte s)
  have := b.isLt
  have hseven : (7 : Word).toNat = 7 := rfl
  refine ⟨?_, ?_, ?_⟩
  · rw [advance_h1, ← recentByte_seven, BitVec.toNat_sub, BitVec.toNat_add, zext_toNat, zext_toNat, h1]
    omega
  · rw [advance_h2, BitVec.toNat_add, BitVec.toNat_sub, BitVec.toNat_mul, hseven, zext_toNat, h1, h2]
    omega
  · rw [advance_h3, h3, shiftXor_advance]

theorem rollInv_rollReset (s : State) : RollInv (rollReset s) := rollInv_of_zero _ rfl rfl rfl rfl

theorem rollInv_reset : RollInv State.reset := rollInv_of_zero _ rfl rfl rfl rfl

/-- Every effect of a command keeps the rolling identities. -/
theorem rollInv_of_commandEffect (i : Instr) (s t : State) (h : CommandEffect i s t) (hs : RollInv s) : RollInv t := by
  cases h with
  | rollReset => exact rollInv_rollReset s
  | start | restart => exact rollInv_rollReset s
  | advance b => exact rollInv_advance b hs
  | within b => exact rollInv_advance b hs
  | quiet | fault | buffer | digestReset | digestUpdate | finalise => exact hs

/-- The window holds the last seven of the bytes of `hist`, newest first, 0 where there are fewer. -/
def History (hist : List Byte) (s : State) : Prop := ∀ j, j < 7 → recentByte s (j + 1) = hist.getD j 0

theorem history_rollReset (s : State) : History [] (rollReset s) := by
  intro j _
  simp [recentByte]

theorem history_advance {hist : List Byte} {s : State} (h : History hist s) (b : Byte) :
    History (b :: hist) (advance b s) := by
  intro j hj
  cases j with
  | zero => exact recentByte_advance_one b s
  | succ j => exact (recentByte_advance_succ b s (j + 1) (by omega) (by omega)).trans (h j (by omega))

/-- Any window is the history of its own bytes. -/
theorem history_self (s : State) : History ((List.range 7).map fun j => recentByte s (j + 1)) s := by
  intro j hj
  simp [hj]

/-- `ROLL.ADV` of a list of bytes puts them in front of the history and keeps the rolling identities. -/
theorem perform_rollAdvs (bytes hist : List Byte) (s : State) (hs : RollInv s) (hh : History hist s) :
    ∃ t, perform (bytes.map .rollAdv) s = .next t ∧ RollInv t ∧ History (bytes.reverse ++ hist) t := by
  induction bytes generalizing s hist with
  | nil => exact ⟨s, rfl, hs, hh⟩
  | cons b bytes ih =>
    obtain ⟨t, hrun, ht, hht⟩ := ih (b :: hist) (answered 0 (sumView (advance b s)) (advance b s)) (rollInv_advance b hs)
      (history_advance hh b)
    refine ⟨t, ?_, ht, by simpa using hht⟩
    rw [List.map_cons, perform_cons _ _ s _ (exec_rollAdv b s), hrun]

/-- The three sums read only the seven bytes. -/
theorem sums_congr {b b' : Nat → Byte} (h : ∀ j, j < 7 → b (j + 1) = b' (j + 1)) :
    plainSum b = plainSum b' ∧ weightedSum b = weightedSum b' ∧ shiftXor b = shiftXor b' := by
  have e1 := h 0 (by omega)
  have e2 := h 1 (by omega)
  have e3 := h 2 (by omega)
  have e4 := h 3 (by omega)
  have e5 := h 4 (by omega)
  have e6 := h 5 (by omega)
  have e7 := h 6 (by omega)
  simp [plainSum, weightedSum, shiftXor, e1, e2, e3, e4, e5, e6, e7]

/-- The closed form of the rolling registers over the seven bytes the window holds. -/
theorem closedForm_of_bytes {s : State} (hs : RollInv s) {b : Nat → Byte}
    (hb : ∀ j, j < 7 → recentByte s (j + 1) = b (j + 1)) :
    s.h1.toNat = plainSum b ∧ s.h2.toNat = weightedSum b ∧ s.h3 = shiftXor b := by
  obtain ⟨h1, h2, h3⟩ := hs
  obtain ⟨e1, e2, e3⟩ := sums_congr hb
  exact ⟨h1.trans e1, h2.trans e2, h3.trans e3⟩

/-- The checksum as a sum of numbers (10_state.md R38). -/
theorem sumView_eq_ofNat (s : State) : sumView s = BitVec.ofNat 32 (s.h1.toNat + s.h2.toNat + s.h3.toNat) := by
  simp [sumView, BitVec.ofNat_add]

end Sys2Proof.Machine
end

section
/-! PROOFS. The statements about runs of the rolling checksum (10_state.md R26, 40_rolling.md). -/

namespace Sys2Proof.Proofs

open Sys2Proof.Machine Sys2Proof.Safety

/-- Settles O18: the identities hold at reset, and of the effects only an advance and a zeroing touch what they read. -/
theorem stepKeepsRollingIdentities : Obligations.StepKeepsRollingIdentities :=
  fun _ _ => step_keeps (fun _ _ _ _ => id) rollInv_reset rollInv_of_commandEffect

/-- Settles O19: the zeroed window is the empty history, and every advance puts its byte in front. -/
theorem checksumIsClosedForm : Obligations.ChecksumIsClosedForm := by
  intro s bytes b
  obtain ⟨t, hrun, ht, hhist⟩ :=
    perform_rollAdvs bytes [] (answered 0 0 (rollReset s)) (rollInv_rollReset s) (history_rollReset s)
  rw [List.append_nil] at hhist
  obtain ⟨h1, h2, h3⟩ := closedForm_of_bytes (b := b) ht hhist
  refine ⟨t, ?_, h1, h2, h3, ?_⟩
  · rw [perform_cons _ _ s _ (exec_rollRst s), hrun]
  · rw [sumView_eq_ofNat, h1, h2, h3]

/-- Settles O20: after seven or more bytes the history of either state is those bytes. -/
theorem sevenAdvancesForgetThePast : Obligations.SevenAdvancesForgetThePast := by
  intro s t bytes hs ht hlen
  obtain ⟨s', hruns, hs', hhists⟩ := perform_rollAdvs bytes _ s hs (history_self s)
  obtain ⟨t', hrunt, ht', hhistt⟩ := perform_rollAdvs bytes _ t ht (history_self t)
  have hrecent (j : Nat) (hj : j < 7) : recentByte s' (j + 1) = recentByte t' (j + 1) := by
    have hlt : j < bytes.reverse.length := by rw [List.length_reverse]; omega
    rw [hhists j hj, hhistt j hj, List.getD_append _ _ _ _ hlt, List.getD_append _ _ _ _ hlt]
  obtain ⟨h1, h2, h3⟩ := closedForm_of_bytes hs' hrecent
  obtain ⟨k1, k2, k3⟩ := ht'
  exact ⟨s', t', hruns, hrunt, BitVec.eq_of_toNat_eq (h1.trans k1.symm), BitVec.eq_of_toNat_eq (h2.trans k2.symm),
    h3.trans k3.symm⟩

end Sys2Proof.Proofs
end

section
/-! SUPPORT. The triggers and reports of a step, when it overflows, and its last byte (42_engine.md R145 to R150, R156). -/

namespace Sys2Proof.Machine

open Sys2Proof.Safety

/-- The last remainder of the double is the last remainder of the single (42_engine.md R148). -/
theorem trigger1_of_trigger2 {c bs : Word} (h : trigger2 c bs = true) : trigger1 c bs = true := by
  simp only [trigger1, trigger2, beq_iff_eq] at *
  have hmod : c.toNat % bs.toNat = c.toNat % (2 * bs.toNat) % bs.toNat := (Nat.mod_mul_left_mod _ _ _).symm
  have hrem : c.toNat % (2 * bs.toNat) = bs.toNat + (bs.toNat - 1) := by omega
  rw [hmod, hrem, Nat.add_mod_left, Nat.mod_eq_of_lt (by omega)]
  omega

/-- At the end of an attempt with a full half the step would overflow (42_engine.md R156). -/
theorem wouldOverflow_of_last_full {p : Params} {byte : Byte} {s : State} (hlast : s.pos + 1 = s.len)
    (hfull : p.sigCap ≤ s.sig[0].length ∨ p.sigCap ≤ s.sig[1].length) : wouldOverflow p byte s = true := by
  rw [wouldOverflow, if_pos hlast, Bool.or_eq_true]
  exact hfull.imp decide_eq_true decide_eq_true

/-- Within an attempt a trigger on a full half would overflow (42_engine.md R156). -/
theorem wouldOverflow_of_mid_full {p : Params} {byte : Byte} {s : State} (hmid : s.pos + 1 ≠ s.len)
    (hfull : (trigger1 (sumView (advance byte s)) s.bs = true ∧ p.sigCap ≤ s.sig[0].length) ∨
      (trigger2 (sumView (advance byte s)) s.bs = true ∧ p.sigCap ≤ s.sig[1].length)) : wouldOverflow p byte s = true := by
  rw [wouldOverflow, if_neg hmid, Bool.or_eq_true, Bool.and_eq_true, Bool.and_eq_true]
  exact hfull.imp (And.imp_right decide_eq_true) (And.imp_right decide_eq_true)

/-- A running engine's step that would overflow faults (60_exceptions.md R240). -/
theorem exec_engStep_of_overflow {byte : Byte} {s : State} (hest : s.est = .running)
    (hfull : wouldOverflow Config.params byte s = true) : exec (.engStep byte) s = .next (faulted 11 s) := by
  have hstep : engStep Config.params byte s = faulted 11 s := by
    simpa [hest, hfull] using engStep_cases Config.params byte s
  exact congrArg _ hstep

/-- The last step of an attempt does not look at its byte (42_engine.md R146, 90_conflicts.md C9). -/
theorem engStep_of_last_eq (p : Params) (b b' : Byte) {s : State} (hlast : s.pos + 1 = s.len) :
    engStep p b s = engStep p b' s := by
  simp only [engStep, wouldOverflow, hlast, if_true]

end Sys2Proof.Machine
end

section
/-! SUPPORT. The invariants of the engine registers, of the fault record and of the character spaces, under every effect of a
command (10_state.md R30 to R35, R40, 20_memory.md R61, R75). -/

namespace Sys2Proof.Machine

open Sys2Proof.Safety

theorem engInv_reset : EngInv State.reset := ⟨rfl, rfl, rfl, rfl, rfl⟩

/-- What the invariants say of a running engine. -/
theorem engInv_running_iff {s : State} (hest : s.est = .running) :
    EngInv s ↔ (∃ n, n ≤ 25 ∧ s.bs.toNat = 3 * 2 ^ n) ∧ s.pos.toNat < s.len.toNat ∧ s.sig[0].length ≤ s.pos.toNat
      ∧ s.sig[1].length ≤ s.sig[0].length := by
  simp only [EngInv, hest]

/-- `3 * 2^n` with at most 25 doublings fits a register (10_state.md R30). -/
theorem toNat_blockSize {n : Nat} (hn : n ≤ 25) : (BitVec.ofNat 32 (3 * 2 ^ n)).toNat = 3 * 2 ^ n := by
  have : 2 ^ n ≤ 2 ^ 25 := Nat.pow_le_pow_right (by omega) hn
  rw [BitVec.toNat_ofNat, Nat.mod_eq_of_lt (by omega)]

/-- The number after `pos` when it is not past `len`. -/
theorem toNat_succ_of_lt {pos len : Word} (h : pos.toNat < len.toNat) : (pos + 1).toNat = pos.toNat + 1 := by
  have := len.isLt
  have hone : (1 : Word).toNat = 1 := rfl
  rw [BitVec.toNat_add, hone]
  omega

/-- A block size above the minimum is halved to a block size (42_engine.md R146). -/
theorem toNat_half_blockSize {bs : Word} {n : Nat} (h : bs.toNat = 3 * 2 ^ n) (hne : bs ≠ 3) :
    ∃ m, n = m + 1 ∧ (bs / 2).toNat = 3 * 2 ^ m := by
  cases n with
  | zero => exact absurd (BitVec.eq_of_toNat_eq h) hne
  | succ m =>
    refine ⟨m, rfl, ?_⟩
    have htwo : (2 : Word).toNat = 2 := rfl
    rw [BitVec.toNat_udiv, htwo, h, Nat.pow_succ]
    omega

theorem length_ite_append_singleton (trig : Bool) (t : Text) (c : Byte) :
    (if trig then t ++ [c] else t).length = t.length + trig.toNat := by cases trig <;> simp

/-- An attempt starts within the invariants, from any state. -/
theorem engInv_start {len : Word} (hlen : len ≠ 0) (s : State) :
    EngInv (answered 0 (bs0 len)
      { attemptReset Config.params { s with bs := bs0 len, len := len } with est := .running }) := by
  obtain ⟨n, hn, -, -, hbs⟩ := bs0_eq_least_doubling len
  have hpos : 0 < len.toNat := Nat.pos_of_ne_zero fun h0 => hlen (BitVec.eq_of_toNat_eq h0)
  rw [attemptReset_eq]
  exact ⟨⟨n, hn, (congrArg BitVec.toNat hbs).trans (toNat_blockSize hn)⟩, hpos, Nat.zero_le _, Nat.le_refl _⟩

/-- Every effect of a command keeps the invariants of the engine registers. -/
theorem engInv_of_commandEffect (i : Instr) (s t : State) (h : CommandEffect i s t) (hs : EngInv s) : EngInv t := by
  cases h with
  | quiet | fault | buffer | rollReset | advance | digestReset | digestUpdate => exact hs
  | start len hlen => exact engInv_start hlen s
  | restart b hest hlast hbs =>
    obtain ⟨⟨n, hn, hsize⟩, hpos, -, -⟩ := (engInv_running_iff hest).mp hs
    obtain ⟨m, rfl, hhalf⟩ := toNat_half_blockSize hsize hbs
    rw [attemptReset_eq]
    refine (engInv_running_iff ?_).mpr ?_
    · exact hest
    · exact ⟨⟨m, Nat.le_of_succ_le hn, hhalf⟩, Nat.zero_lt_of_lt hpos, Nat.zero_le _, Nat.le_refl _⟩
  | finalise b hest hlast =>
    obtain ⟨hsize, hpos, h0, h1⟩ := (engInv_running_iff hest).mp hs
    have hlen : s.len.toNat = s.pos.toNat + 1 := hlast ▸ toNat_succ_of_lt hpos
    refine ⟨hsize, Nat.zero_lt_of_lt hpos, rfl, ?_, ?_, ?_⟩ <;> simp [answered] <;> omega
  | within b trig1 trig2 htrig1 htrig2 hest hmid =>
    obtain ⟨hsize, hpos, h0, h1⟩ := (engInv_running_iff hest).mp hs
    have hsucc := toNat_succ_of_lt hpos
    have hlt : s.pos.toNat + 1 ≠ s.len.toNat := fun e => hmid (BitVec.eq_of_toNat_eq (hsucc.trans e))
    have htrig : trig2.toNat ≤ trig1.toNat := by
      cases trig2 with
      | false => exact Nat.zero_le _
      | true => rw [← htrig1, trigger1_of_trigger2 htrig2]
    have := trig1.toNat_le
    refine (engInv_running_iff ?_).mpr ⟨hsize, ?_, ?_, ?_⟩
    · exact hest
    · exact hsucc ▸ (by omega : s.pos.toNat + 1 < s.len.toNat)
    · simp [answered, length_ite_append_singleton]; omega
    · simp [answered, length_ite_append_singleton]; omega

theorem faultInv_reset : FaultInv State.reset := rfl

/-- Every effect of a command keeps the fault record in its legal values: a fault records one of the four codes. -/
theorem faultInv_of_commandEffect (i : Instr) (s t : State) (h : CommandEffect i s t) (hs : FaultInv s) : FaultInv t := by
  rcases h.faultRecord with ⟨hf, hc⟩ | ⟨hf, code, hcode, hc⟩
  · rwa [FaultInv, hf, hc]
  · rw [FaultInv, if_pos hf, hc]
    cases hfault : s.fault with
    | true => rw [if_pos rfl]; rwa [FaultInv, if_pos hfault] at hs
    | false => simpa using hcode

/-- Every character of the text is one of the 64. -/
def OverAlphabet (t : Text) : Prop := ∀ c ∈ t, ∃ i, c = alphaChar i

theorem overAlphabet_append_ch {t : Text} (h : OverAlphabet t) (v : Word) : OverAlphabet (t ++ [ch v]) := by
  intro c hc
  rcases List.mem_append.mp hc with hc | hc
  · exact h c hc
  · exact List.mem_singleton.mp hc ▸ ch_eq_alphaChar v

/-- A half that grows only with room stays within its capacity and over the alphabet. -/
theorem half_of_ite {p : Params} {trig : Bool} {t : Text} (hroom : trig = true → t.length < p.sigCap)
    (hlen : t.length ≤ p.sigCap) (halpha : OverAlphabet t) (v : Word) :
    (if trig then t ++ [ch v] else t).length ≤ p.sigCap ∧ OverAlphabet (if trig then t ++ [ch v] else t) := by
  cases trig with
  | false => exact ⟨hlen, halpha⟩
  | true => exact ⟨by simpa using hroom rfl, overAlphabet_append_ch halpha v⟩

/-- A pair of texts stays within a length when a text within it is written. -/
theorem length_set_le {v : Vector Text 2} {t : Text} {n : Nat} (h0 : v[0].length ≤ n) (h1 : v[1].length ≤ n)
    (ht : t.length ≤ n) (x : Fin 2) : (v.set x t)[0].length ≤ n ∧ (v.set x t)[1].length ≤ n := by
  match x with
  | 0 => simpa using ⟨ht, h1⟩
  | 1 => simpa using ⟨h0, ht⟩

theorem spaceInv_reset : SpaceInv State.reset :=
  ⟨Nat.zero_le _, Nat.zero_le _, Nat.zero_le _, Nat.zero_le _, nofun, nofun⟩

/-- Every effect of a command keeps the character spaces in form. -/
theorem spaceInv_of_commandEffect (i : Instr) (s t : State) (h : CommandEffect i s t) (hs : SpaceInv s) : SpaceInv t := by
  obtain ⟨h0, h1, hc0, hc1, ha0, ha1⟩ := hs
  cases h with
  | quiet | fault | rollReset | advance | digestReset | digestUpdate => exact ⟨h0, h1, hc0, hc1, ha0, ha1⟩
  | buffer x text d hfits =>
    obtain ⟨hc0, hc1⟩ := length_set_le hc0 hc1 hfits x
    exact ⟨h0, h1, hc0, hc1, ha0, ha1⟩
  | start | restart =>
    rw [attemptReset_eq]
    exact ⟨Nat.zero_le _, Nat.zero_le _, hc0, hc1, nofun, nofun⟩
  | finalise b _ _ hroom0 hroom1 =>
    obtain ⟨hl0, hal0⟩ := half_of_ite (trig := true) (fun _ => hroom0) h0 ha0 s.acc[0]
    obtain ⟨hl1, hal1⟩ := half_of_ite (trig := true) (fun _ => hroom1) h1 ha1 s.acc[1]
    exact ⟨hl0, hl1, hc0, hc1, hal0, hal1⟩
  | within b trig1 trig2 _ _ _ _ hroom0 hroom1 =>
    obtain ⟨hl0, hal0⟩ := half_of_ite hroom0 h0 ha0 (mulXor s.acc[0] b)
    obtain ⟨hl1, hal1⟩ := half_of_ite hroom1 h1 ha1 (mulXor s.acc[1] b)
    exact ⟨hl0, hl1, hc0, hc1, hal0, hal1⟩

end Sys2Proof.Machine
end

section
/-! PROOFS. The statements about the engine's reports and overflow, and the invariants that every step keeps (42_engine.md
section 3, 10_state.md section 4, 20_memory.md, 60_exceptions.md section 3). -/

namespace Sys2Proof.Proofs

open Sys2Proof.Machine Sys2Proof.Safety

/-- Settles O37: the invariants hold at reset, and every effect of a command keeps them. -/
theorem stepKeepsEngineInvariants : Obligations.StepKeepsEngineInvariants :=
  fun _ _ => step_keeps (fun _ _ _ _ => id) engInv_reset engInv_of_commandEffect

/-- Settles O55: the record is legal at reset, and every effect of a command keeps it so. -/
theorem stepKeepsFaultRecordLegal : Obligations.StepKeepsFaultRecordLegal :=
  fun _ _ => step_keeps (fun _ _ _ _ => id) faultInv_reset faultInv_of_commandEffect

/-- Settles O56: the spaces are empty at reset, and every effect of a command keeps them in form. -/
theorem stepKeepsCharacterSpaces : Obligations.StepKeepsCharacterSpaces :=
  fun _ _ => step_keeps (fun _ _ _ _ => id) spaceInv_reset spaceInv_of_commandEffect

/-- Settles O57: each invariant at reset. -/
theorem invariantsHoldAtReset : Obligations.InvariantsHoldAtReset :=
  ⟨rollInv_reset, engInv_reset, faultInv_reset, spaceInv_reset⟩

/-- Settles O31: in each of the four ways `wouldOverflow` holds, and it is tested before anything is written. -/
theorem stepIntoFullHalfFaults : Obligations.StepIntoFullHalfFaults := by
  intro s b c hest hfull
  have htrig1 : trigger1 (sumView (advance b s)) s.bs = decide _ := trigger1_eq_decide c s.bs
  have htrig2 : trigger2 (sumView (advance b s)) s.bs = decide _ := trigger2_eq_decide c s.bs
  refine exec_engStep_of_overflow hest ?_
  rcases hfull with ⟨hlast, hfull⟩ | ⟨hmid, hfull⟩
  · exact wouldOverflow_of_last_full hlast hfull
  · refine wouldOverflow_of_mid_full hmid (hfull.imp (And.imp_left fun h => ?_) (And.imp_left fun h => ?_))
    · rw [htrig1]; exact decide_eq_true h
    · rw [htrig2]; exact decide_eq_true h

/-- Settles O32: neither the overflow test nor the end of the attempt looks at the byte. -/
theorem lastByteIsIgnored : Obligations.LastByteIsIgnored :=
  fun _ b b' hlast => congrArg Host.Outcome.next (engStep_of_last_eq Config.params b b' hlast)

/-- Settles O33: by the ways of a step; within an attempt the second trigger implies the first. -/
theorem stepReportsAreTheFive : Obligations.StepReportsAreTheFive := by
  intro s t b hexec
  cases hexec
  rcases engStep_cases Config.params b s with ⟨-, h⟩ | ⟨-, h⟩ | ⟨-, -, h⟩ | ⟨-, -, -, h⟩ | ⟨-, -, -, h⟩
    <;> rw [h]
  · exact .inr (.inl rfl)
  · exact .inr (.inr (.inl rfl))
  · exact .inr (.inr (.inr rfl))
  · rcases endOfAttempt_cases Config.params { s with pos := s.pos + 1 } with ⟨-, h⟩ | ⟨-, -, h⟩ <;> rw [h]
    · exact .inl ⟨2, rfl, by decide⟩
    · exact .inl ⟨1, rfl, by decide⟩
  · rw [midAttempt_eq _ _ _ rfl rfl]
    refine .inl ⟨_, rfl, ?_⟩
    generalize hc : sumView (advance b { s with pos := s.pos + 1 }) = c
    cases htrig2 : trigger2 c s.bs with
    | true => rw [trigger1_of_trigger2 htrig2]; decide
    | false => generalize trigger1 c s.bs = trig1; revert trig1; decide

end Sys2Proof.Proofs
end

section
/-! SUPPORT. Runs of the engine: a list of bytes fed to `ENG.STEP`, and the steps still to come before the end of a hash
(42_engine.md section 3, 'Termination'). -/

namespace Sys2Proof.Machine

open Sys2Proof.Safety

/-- The state after `ENG.STEP` of each byte in turn. -/
def engSteps (bytes : List Byte) (s : State) : State := bytes.foldl (fun u b => engStep Config.params b u) s

theorem perform_engSteps (bytes : List Byte) (s : State) :
    perform (bytes.map .engStep) s = .next (engSteps bytes s) := by
  induction bytes generalizing s with
  | nil => rfl
  | cons b bytes ih =>
    rw [List.map_cons, perform_cons (.engStep b) _ s (engStep Config.params b s) rfl, ih]
    rfl

/-- A running engine that meets the invariants, `m` halvings above the minimum block size, with no length that `SIG_CAP`
cannot hold. -/
structure Attempting (m : Nat) (s : State) : Prop where
  est : s.est = .running
  inv : EngInv s
  size : s.bs.toNat = 3 * 2 ^ m
  fits : s.len.toNat ≤ Config.params.sigCap

/-- The steps that are left when every halving is used: those of this attempt, and the whole length for each halving. -/
def stepsLeft (m : Nat) (s : State) : Nat := m * s.len.toNat + (s.len.toNat - s.pos.toNat)

theorem Attempting.pos_lt {m : Nat} {s : State} (h : Attempting m s) : s.pos.toNat < s.len.toNat :=
  ((engInv_running_iff h.est).mp h.inv).2.1

/-- No half is full while an attempt runs, since neither is longer than `POS`; so no step overflows. -/
theorem Attempting.wouldOverflow_eq_false {m : Nat} {s : State} (h : Attempting m s) (b : Byte) :
    wouldOverflow Config.params b s = false := by
  obtain ⟨-, hpos, h0, h1⟩ := (engInv_running_iff h.est).mp h.inv
  have hfits := h.fits
  have hroom0 : s.sig[0].length < Config.params.sigCap := by omega
  have hroom1 : s.sig[1].length < Config.params.sigCap := by omega
  by_cases hlast : s.pos + 1 = s.len
  · exact wouldOverflow_of_last hlast hroom0 hroom1
  · exact wouldOverflow_of_mid hlast (fun _ => hroom0) fun _ => hroom1

/-- A step finalises or uses up one of the steps left. -/
theorem Attempting.step {m : Nat} {s : State} (h : Attempting m s) (b : Byte) :
    (engStep Config.params b s).est = .finalized ∨
      ∃ n, Attempting n (engStep Config.params b s) ∧ stepsLeft n (engStep Config.params b s) + 1 = stepsLeft m s := by
  have hinv := engInv_of_commandEffect _ _ _ (engStep_commandEffect s b) h.inv
  have hpos := h.pos_lt
  have hsucc := toNat_succ_of_lt hpos
  rcases engStep_of_running h.est (h.wouldOverflow_eq_false b) with ⟨hlast, he⟩ | ⟨-, he⟩
  · rcases endOfAttempt_cases Config.params { s with pos := s.pos + 1 } with ⟨-, hend⟩ | ⟨-, hbs, hend⟩
    · exact .inl (by rw [he, hend]; rfl)
    · obtain ⟨n, rfl, hhalf⟩ := toNat_half_blockSize h.size hbs
      have hleft : stepsLeft (n + 1) s = n * s.len.toNat + s.len.toNat + 1 := by
        rw [stepsLeft, Nat.succ_mul, ← hlast, hsucc]
        omega
      rw [he, hend, emit_both] at hinv ⊢
      exact .inr ⟨n, ⟨h.est, hinv, hhalf, h.fits⟩, hleft.symm⟩
  · have hleft : m * s.len.toNat + (s.len.toNat - (s.pos + 1).toNat) + 1 = stepsLeft m s := by
      rw [hsucc, stepsLeft]
      omega
    rw [he, midAttempt_eq _ _ _ rfl rfl] at hinv ⊢
    exact .inr ⟨m, ⟨h.est, hinv, h.size, h.fits⟩, hleft⟩

/-- A run of as many bytes as there are steps left reaches the end within them. -/
theorem Attempting.finalises {m : Nat} {s : State} (h : Attempting m s) (bytes : List Byte)
    (hlen : stepsLeft m s ≤ bytes.length) :
    ∃ k, k ≤ stepsLeft m s ∧ (engSteps (bytes.take k) s).est = .finalized := by
  induction bytes generalizing m s with
  | nil =>
    have := h.pos_lt
    simp only [stepsLeft, List.length_nil] at hlen
    omega
  | cons b bytes ih =>
    rcases h.step b with hfin | ⟨n, hnext, hleft⟩
    · have := h.pos_lt
      exact ⟨1, by simp only [stepsLeft]; omega, hfin⟩
    · rw [List.length_cons] at hlen
      obtain ⟨k, hk, hfin⟩ := ih hnext (by omega)
      exact ⟨k + 1, by omega, hfin⟩

/-- `ENG.INIT` starts the attempts of a hash. -/
theorem attempting_of_start {len : Word} (hlen : len ≠ 0) (hfits : len.toNat ≤ Config.params.sigCap) (s : State) :
    ∃ m t, exec (.engInit len) s = .next t ∧ Attempting m t ∧ t.pos = 0 ∧ t.len = len ∧
      ∀ n, len.toNat ≤ 192 * 2 ^ n → m ≤ n := by
  obtain ⟨m, hm, -, hleast, hbs⟩ := bs0_eq_least_doubling len
  have hexec := exec_engInit_of_ne_zero hlen s
  refine ⟨m, _, hexec, ⟨rfl, engInv_start hlen s, ?_, hfits⟩, rfl, rfl, fun n hn => ?_⟩
  · exact (congrArg BitVec.toNat hbs).trans (toNat_blockSize hm)
  · by_contra hlt
    have := hleast n (by omega)
    omega

end Sys2Proof.Machine
end

section
/-! SUPPORT. What a hash can depend on: the part of a state that `ENG.INIT` and `ENG.STEP` read and write
(42_engine.md section 3, 'Derived facts about steps' (e)). -/

namespace Sys2Proof.Machine

open Sys2Proof.Safety

/-- The rolling, digest and engine registers and both halves; everything else blanked. -/
def hashPart (s : State) : State :=
  { s with fault := false, fcause := 0, cmp := #v[[], []], rst := false, inputs := [], sent := [] }

variable (p : Params) (s : State)

@[simp] theorem hashPart_est : (hashPart s).est = s.est := rfl

theorem hashPart_hashPart : hashPart (hashPart s) = hashPart s := rfl

theorem fields_of_hashPart_eq {s t : State} (h : hashPart s = hashPart t) :
    s.h1 = t.h1 ∧ s.h2 = t.h2 ∧ s.h3 = t.h3 ∧ s.idx = t.idx ∧ s.win = t.win ∧ s.acc = t.acc ∧ s.bs = t.bs
      ∧ s.len = t.len ∧ s.pos = t.pos ∧ s.est = t.est ∧ s.sig = t.sig := by
  simpa [hashPart] using h

theorem hashPart_faulted (code : BitVec 4) : hashPart (faulted code s) = hashPart s := rfl

theorem hashPart_endOfAttempt : hashPart (endOfAttempt p s) = hashPart (endOfAttempt p (hashPart s)) := by
  rcases endOfAttempt_cases p s with ⟨hend, h⟩ | ⟨hshort, hbs, h⟩ <;>
    rcases endOfAttempt_cases p (hashPart s) with ⟨hend', h'⟩ | ⟨hshort', hbs', h'⟩ <;> rw [h, h']
  · rfl
  · exact absurd hend (not_or.mpr ⟨Nat.not_le.mpr hshort', hbs'⟩)
  · exact absurd hend' (not_or.mpr ⟨Nat.not_le.mpr hshort, hbs⟩)
  · rfl

theorem hashPart_midAttempt (b : Byte) : hashPart (midAttempt p b s) = hashPart (midAttempt p b (hashPart s)) := by
  rw [midAttempt_eq p b s rfl rfl, midAttempt_eq p b (hashPart s) rfl rfl]
  rfl

/-- A step's effect on the hash is determined by its byte and the hash so far: both engines go the same way. -/
theorem hashPart_engStep (b : Byte) : hashPart (engStep p b s) = hashPart (engStep p b (hashPart s)) := by
  have hoverEq : wouldOverflow p b (hashPart s) = wouldOverflow p b s := rfl
  have hways := engStep_cases p b (hashPart s)
  rw [hoverEq] at hways
  have hfault {code : BitVec 4} (h : engStep p b s = faulted code s)
      (h' : engStep p b (hashPart s) = faulted code (hashPart s)) :
      hashPart (engStep p b s) = hashPart (engStep p b (hashPart s)) := by
    rw [h, h', hashPart_faulted, hashPart_faulted, hashPart_hashPart]
  rcases engStep_cases p b s with ⟨hest, h⟩ | ⟨hest, h⟩ | ⟨hest, hover, h⟩ | ⟨hest, hover, hlast, h⟩ |
    ⟨hest, hover, hmid, h⟩
  · exact hfault h (by simpa [hest] using hways)
  · exact hfault h (by simpa [hest] using hways)
  · exact hfault h (by simpa [hest, hover] using hways)
  · rcases engStep_of_running (s := hashPart s) hest (hoverEq.trans hover) with ⟨-, h'⟩ | ⟨hmid, -⟩
    · rw [h, h', hashPart_endOfAttempt]
      rfl
    · exact absurd hlast hmid
  · rcases engStep_of_running (s := hashPart s) hest (hoverEq.trans hover) with ⟨hlast, -⟩ | ⟨-, h'⟩
    · exact absurd hlast hmid
    · rw [h, h', hashPart_midAttempt]
      rfl

/-- States that agree on the hash agree on it after the same bytes. -/
theorem hashPart_engSteps (bytes : List Byte) {s t : State} (h : hashPart s = hashPart t) :
    hashPart (engSteps bytes s) = hashPart (engSteps bytes t) := by
  induction bytes generalizing s t with
  | nil => exact h
  | cons b bytes ih => exact ih (by rw [hashPart_engStep, h, ← hashPart_engStep])

/-- `ENG.INIT` of a length other than 0 leaves nothing of the hash before. -/
theorem hashPart_start (len : Word) (s t : State) :
    hashPart (answered 0 (bs0 len)
        { attemptReset Config.params { s with bs := bs0 len, len := len } with est := .running })
      = hashPart (answered 0 (bs0 len)
        { attemptReset Config.params { t with bs := bs0 len, len := len } with est := .running }) := by
  rw [attemptReset_eq, attemptReset_eq]
  rfl

end Sys2Proof.Machine
end

section
/-! PROOFS. The statements about a whole hash (42_engine.md section 3). -/

namespace Sys2Proof.Proofs

open Sys2Proof.Machine Sys2Proof.Safety

/-- Settles O41: every step uses up one of the steps left, and after `ENG.INIT` there are `(m + 1) * len` for `m` halvings. -/
theorem hashingTerminates : Obligations.HashingTerminates := by
  intro s len n bytes hlen _ hreach hfits hbytes
  obtain ⟨m, t, hexec, hatt, hpos, htlen, hleast⟩ := attempting_of_start hlen hfits s
  have hleft : stepsLeft m t ≤ (n + 1) * len.toNat := by
    rw [stepsLeft, hpos, htlen, Nat.succ_mul]
    exact Nat.add_le_add (Nat.mul_le_mul_right _ (hleast n hreach)) (Nat.sub_le _ _)
  obtain ⟨k, hk, hfin⟩ := hatt.finalises bytes (hleft.trans hbytes)
  refine ⟨k, _, hk.trans hleft, ?_, hfin⟩
  rw [perform_cons _ _ s t hexec, perform_engSteps]

/-- Settles O42: `ENG.INIT` makes the hash parts equal, and every step keeps them so. -/
theorem hashDependsOnlyOnInput : Obligations.HashDependsOnlyOnInput := by
  intro s t len bytes hlen
  have hs := exec_engInit_of_ne_zero hlen s
  have ht := exec_engInit_of_ne_zero hlen t
  have hpart := hashPart_engSteps bytes (hashPart_start len s t)
  refine ⟨_, _, (perform_cons _ _ s _ hs).trans (perform_engSteps bytes _),
    (perform_cons _ _ t _ ht).trans (perform_engSteps bytes _), fields_of_hashPart_eq hpart⟩

end Sys2Proof.Proofs
end

section
/-! SUPPORT. The digest update as a map on words, and the low six bits that its character reads (41_digest.md R122). -/

namespace Sys2Proof.Machine

/-- The inverse of `PRIME` modulo 2^32; `PRIME` is odd, so there is one. -/
def primeInverse : Word := 899433627

theorem prime_mul_primeInverse : Config.prime * primeInverse = 1 := by decide

/-- XOR with the byte, then multiply by the inverse, takes an update back. -/
def mulXorInverse (v : Word) (b : Byte) : Word := (v ^^^ zext b) * primeInverse

theorem mulXorInverse_mulXor (v : Word) (b : Byte) : mulXorInverse (mulXor v b) b = v := by
  rw [mulXorInverse, mulXor, BitVec.xor_assoc, BitVec.xor_self, BitVec.xor_zero, BitVec.mul_assoc, prime_mul_primeInverse]
  exact BitVec.mul_one v

theorem mulXor_mulXorInverse (v : Word) (b : Byte) : mulXor (mulXorInverse v b) b = v := by
  have hinv : primeInverse * Config.prime = 1#32 := by decide
  rw [mulXor, mulXorInverse, BitVec.mul_assoc, hinv, BitVec.mul_one, BitVec.xor_assoc, BitVec.xor_self, BitVec.xor_zero]

/-- The low six bits of a product with `PRIME`, which is 19 modulo 64. -/
theorem extractLsb'_mul_prime (v : Word) :
    (v * Config.prime).extractLsb' 0 6 = BitVec.ofNat 6 (v.toNat % 64 * 19) := by
  have hprod : (v * Config.prime).toNat = v.toNat * 16777619 % 2 ^ 32 := BitVec.toNat_mul v Config.prime
  apply BitVec.eq_of_toNat_eq
  rw [BitVec.extractLsb'_toNat, hprod, Nat.shiftRight_zero, BitVec.toNat_ofNat]
  omega

theorem extractLsb'_zext (b : Byte) : (zext b).extractLsb' 0 6 = b.extractLsb' 0 6 := by
  apply BitVec.eq_of_toNat_eq
  simp only [BitVec.extractLsb'_toNat, zext_toNat]

end Sys2Proof.Machine
end

section
/-! SUPPORT. The decimal spelling (00_scope.md R9, 43_comparator.md R186). -/

namespace Sys2Proof.Machine

open Sys2Proof.Safety

theorem decValue_append_singleton (d : Text) (c : Byte) : decValue (d ++ [c]) = 10 * decValue d + (c.toNat - 0x30) := by
  simp [decValue]

theorem digitChar_toNat {n : Nat} (h : n < 10) : (digitChar n).toNat = 0x30 + n := by
  rw [digitChar, BitVec.toNat_ofNat]
  omega

theorem digits_singleton {n : Nat} (h : n < 10) : Digits [digitChar n] := by
  refine ⟨by simp, fun c hc => ?_⟩
  rw [List.mem_singleton.mp hc, digitChar_toNat h]
  omega

theorem digits_append {d e : Text} (hd : Digits d) (he : Digits e) : Digits (d ++ e) :=
  ⟨by simp [hd.1], fun c hc => (List.mem_append.mp hc).elim (hd.2 c) (he.2 c)⟩

theorem decValue_digitChar {n : Nat} (h : n < 10) : decValue [digitChar n] = n := by
  simp [decValue, digitChar_toNat h]

/-- A text spells `n`: digits only, of value `n`, and not led by `0` unless `n` is 0. -/
def Spells (d : Text) (n : Nat) : Prop := Digits d ∧ decValue d = n ∧ (0 < n → d.head? ≠ some 0x30)

theorem spells_digit {n : Nat} (h : n < 10) : Spells [digitChar n] n := by
  refine ⟨digits_singleton h, decValue_digitChar h, fun hpos hhead => ?_⟩
  have hzero := congrArg BitVec.toNat (Option.some_inj.mp hhead)
  rw [digitChar_toNat h] at hzero
  simp at hzero
  omega

/-- A digit after a positive number's spelling spells ten times the number and the digit. -/
theorem spells_append_digit {d : Text} {n k : Nat} (h : Spells d n) (hpos : 0 < n) (hk : k < 10) :
    Spells (d ++ [digitChar k]) (10 * n + k) := by
  obtain ⟨hd, hvalue, hhead⟩ := h
  refine ⟨digits_append hd (digits_singleton hk), ?_, fun _ => ?_⟩
  · rw [decValue_append_singleton, hvalue, digitChar_toNat hk]
    omega
  · rw [List.head?_append_of_ne_nil d hd.1]
    exact hhead hpos

theorem spells_decDigits {fuel n : Nat} (h : n ≤ fuel) : Spells (decDigits fuel n) n := by
  induction fuel generalizing n with
  | zero =>
    obtain rfl : n = 0 := by omega
    exact spells_digit (by omega)
  | succ fuel ih =>
    rw [decDigits]
    split
    next hn => exact spells_digit hn
    next hn =>
      have hspells := spells_append_digit (ih (n := n / 10) (by omega)) (by omega) (Nat.mod_lt n (by omega))
      rwa [Nat.div_add_mod] at hspells

theorem spells_dec (n : Nat) : Spells (dec n) n := spells_decDigits (Nat.le_refl n)

theorem dec_zero_length : (dec 0).length = 1 := rfl

end Sys2Proof.Machine
end

section
/-! SUPPORT. The register map outside its numbers, and the fields of the `STATUS` view (10_state.md R34, R39). -/

namespace Sys2Proof.Machine

open Sys2Proof.Safety

/-- The window has the numbers 0x08 to 0x0E (10_state.md R39). -/
theorem ofNumber_win (i : Fin 7) : Reg.ofNumber (8 + BitVec.ofNat 8 i.val) = some (.win i) := by revert i; decide

/-- `RDREG` of a number outside the list of 44_system.md R221 faults. -/
theorem exec_rdreg_of_not_listed {reg : BitVec 8} (h : regNumberListed reg = false) (s : State) :
    exec (.rdreg reg) s = .next (faulted 8 s) := by
  have hnone : Reg.ofNumber reg = none := by 
    rw [← Option.not_isSome_iff_eq_none, ofNumber_isSome_iff, h]
    decide
  rcases execRdreg_cases reg s with ⟨-, hout⟩ | ⟨r, hsome, -⟩
  · exact hout
  · rw [hnone] at hsome; cases hsome

theorem statusWord_getLsbD_two (s : State) : (statusWord s).getLsbD 2 = retryFlag s := by
  simp only [statusWord, BitVec.getLsbD_append]
  simp

theorem statusWord_getLsbD_three (s : State) : (statusWord s).getLsbD 3 = s.fault := by
  simp only [statusWord, BitVec.getLsbD_append]
  simp

theorem statusWord_extractLsb'_est (s : State) : (statusWord s).extractLsb' 0 2 = s.est.bits := by
  apply BitVec.eq_of_toNat_eq
  rw [BitVec.extractLsb'_toNat, Nat.shiftRight_zero, statusWord_toNat]
  have := s.est.bits.isLt
  omega

end Sys2Proof.Machine
end

section
/-! PROOFS. The statements about digest words, characters and views (41_digest.md, 00_scope.md section 4, 20_memory.md R64,
10_state.md section 4, 44_system.md). -/

namespace Sys2Proof.Proofs

open Sys2Proof.Machine Sys2Proof.Safety

/-- Settles O24: multiplication by an odd number and XOR both have an inverse. -/
theorem digestUpdateIsBijective : Obligations.DigestUpdateIsBijective := fun b =>
  Function.bijective_iff_has_inverse.mpr
    ⟨fun v => mulXorInverse v b, fun v => mulXorInverse_mulXor v b, fun v => mulXor_mulXorInverse v b⟩

/-- Settles O25: the low six bits of a product and of an XOR come from the low six bits of their operands. -/
theorem updatedCharacterFromLowBits : Obligations.UpdatedCharacterFromLowBits := by
  intro v b
  rw [ch, mulXor, BitVec.extractLsb'_xor, extractLsb'_mul_prime, extractLsb'_zext]

/-- Settles O35: the digits of `n / 10` and one more digit; only 0 is led by `0`, and it has one digit. -/
theorem decSpellsTheNumber : Obligations.DecSpellsTheNumber := by
  refine ⟨fun n => ?_, rfl, decValue_append_singleton⟩
  obtain ⟨hdigits, hvalue, hhead⟩ := spells_dec n
  refine ⟨hdigits, hvalue, fun hlong => hhead ?_⟩
  refine Nat.pos_of_ne_zero fun hzero => ?_
  rw [hzero, dec_zero_length] at hlong
  omega

/-- Settles O36: the table entry by entry, the inverse both ways, and the colon outside the inverse's domain. -/
theorem alphabetIsTheSixtyFour : Obligations.AlphabetIsTheSixtyFour := by
  refine ⟨by decide, fun c i => ⟨alphaChar_of_alphaIndex c i, ?_⟩, rfl, fun i hi => ?_⟩
  · rintro rfl
    exact alphaIndex_alphaChar i
  · have halpha := (isAlpha_iff colon).mpr ⟨i, hi.symm⟩
    rw [isAlpha_colon] at halpha
    cases halpha

/-- Settles O12: each number names its register in the map. -/
theorem rdregAnswersEveryView : Obligations.RdregAnswersEveryView := fun s =>
  ⟨exec_rdreg_of_ofNumber (r := .h1) rfl s, exec_rdreg_of_ofNumber (r := .h2) rfl s,
    exec_rdreg_of_ofNumber (r := .h3) rfl s, exec_rdreg_of_ofNumber (r := .idx) rfl s,
    exec_rdreg_of_ofNumber (r := .sum) rfl s, fun i => exec_rdreg_of_ofNumber (ofNumber_win i) s,
    exec_rdreg_of_ofNumber (r := .acc 0) rfl s, exec_rdreg_of_ofNumber (r := .acc 1) rfl s,
    exec_rdreg_of_ofNumber (r := .bs) rfl s, exec_rdreg_of_ofNumber (r := .len) rfl s,
    exec_rdreg_of_ofNumber (r := .pos) rfl s, exec_rdreg_of_ofNumber (r := .status) rfl s,
    exec_rdreg_of_ofNumber (r := .sigLen 0) rfl s, exec_rdreg_of_ofNumber (r := .sigLen 1) rfl s,
    exec_rdreg_of_ofNumber (r := .cmpLen 0) rfl s, exec_rdreg_of_ofNumber (r := .cmpLen 1) rfl s⟩

/-- Settles O13: the reserved numbers are outside the list. -/
theorem rdregReservedNumberFaults : Obligations.RdregReservedNumberFaults := by
  intro s n hreserved
  refine exec_rdreg_of_not_listed ?_ s
  simp only [regNumberListed, Bool.or_eq_false_iff, Bool.and_eq_false_iff, decide_eq_false_iff_not]
  omega

/-- Settles O15: `STATUS` field by field. -/
theorem levelOutputsMirrorStatus : Obligations.LevelOutputsMirrorStatus := by
  intro s
  refine ⟨(statusWord_getLsbD_two s).symm, ?_, (statusWord_getLsbD_three s).symm⟩
  rw [statusWord_extractLsb'_est, donePin]
  cases s.est <;> rfl

end Sys2Proof.Proofs
end

section
/-! SUPPORT. `CMP.PUSH`, the comparison both ways round, and the text of a complete signature (43_comparator.md R182, R184,
R192, 42_engine.md section 3, 'Derived facts about steps' (c)). -/

namespace Sys2Proof.Machine

open Sys2Proof.Safety

theorem reservedBitsFault_cmpPush : ReservedBitsFault 0x41 0xFFFFFE00 := by
  refine reservedBitsFault_of_arguments fun i hop => ?_
  cases i with
  | cmpPush x c => exact selectorByteArgument_and_reserved x c
  | _ => exact absurd hop (by simp [Instr.opcode])

/-- `CMP.PUSH` into a buffer with room (43_comparator.md R182). -/
theorem exec_cmpPush_of_room {x : Fin 2} {c : Byte} {s : State} (hroom : s.cmp[x].length < Config.params.cmpCap) :
    exec (.cmpPush x c) s = .next (answered 0 (u32 (s.cmp[x].length + 1)) { s with cmp := s.cmp.set x (s.cmp[x] ++ [c]) }) := by
  rcases cmpPush_cases Config.params x c s with ⟨hfull, -⟩ | ⟨-, h⟩
  · exact absurd hroom (Nat.not_lt.mpr hfull)
  · exact congrArg _ h

/-- `CMP.PUSH` into a full buffer (60_exceptions.md R240). -/
theorem exec_cmpPush_of_full {x : Fin 2} {c : Byte} {s : State} (hfull : Config.params.cmpCap ≤ s.cmp[x].length) :
    exec (.cmpPush x c) s = .next (faulted 11 s) := by
  rcases cmpPush_cases Config.params x c s with ⟨-, h⟩ | ⟨hroom, -⟩
  · exact congrArg _ h
  · exact absurd hroom (Nat.not_lt.mpr hfull)

/-- Swapping well-formed texts does not change the comparison (43_comparator.md R192). -/
theorem compareTexts_comm {a b : Text} (ha : Grammatical a) (hb : Grammatical b) : compareTexts a b = compareTexts b a := by
  obtain ⟨d, r1, r2, ha⟩ := ha
  obtain ⟨e, q1, q2, hb⟩ := hb
  rw [compareTexts_of_signatures ha hb, compareTexts_of_signatures hb ha, lev_comm r1 q1, lev_comm r2 q2]
  simp only [eq_comm]

/-- A well-formed text is at distance 0 from itself (43_comparator.md R192). -/
theorem compareTexts_self {a : Text} (ha : Grammatical a) : compareTexts a a = (.ok, 0) := by
  obtain ⟨d, r1, r2, ha⟩ := ha
  rw [compareTexts_of_signatures ha ha, if_pos rfl, lev_self, lev_self]
  rfl

/-- `CMP.RUN` with one well-formed text in both buffers. -/
theorem exec_cmpRun_of_same {s : State} {a : Text} (ha : Grammatical a) (h0 : s.cmp[0] = a) (h1 : s.cmp[1] = a) :
    exec .cmpRun s = .next (answered 0 0 s) := by
  rw [exec_cmpRun, h0, h1, compareTexts_self ha]
  rfl

/-- The text of a complete signature matches the grammar: both halves have a character. -/
theorem grammatical_formatText {s : State} (hinv : EngInv s) (hspace : SpaceInv s) (hest : s.est = .finalized) :
    Grammatical (formatText s) := by
  simp only [EngInv, hest] at hinv
  obtain ⟨-, -, -, -, h10, h1⟩ := hinv
  obtain ⟨-, -, -, -, ha0, ha1⟩ := hspace
  obtain ⟨hdigits, -, -⟩ := spells_dec s.bs.toNat
  exact ⟨dec s.bs.toNat, s.sig[0], s.sig[1], hdigits, ⟨List.ne_nil_of_length_pos (by omega), ha0⟩,
    ⟨List.ne_nil_of_length_pos h1, ha1⟩, rfl⟩

/-- The state after `CMP.LDF x` of a text that fits. -/
def loaded (x : Fin 2) (s : State) : State := answered 0 (u32 (formatText s).length) (setCmp x (formatText s) s)

theorem exec_cmpLdf_eq_loaded (x : Fin 2) {s : State} (hest : s.est ≠ .idle)
    (hfits : (formatText s).length ≤ Config.params.cmpCap) : exec (.cmpLdf x) s = .next (loaded x s) :=
  exec_cmpLdf_of_fits hest hfits

theorem loaded_est (x : Fin 2) (s : State) : (loaded x s).est = s.est := rfl

theorem loaded_fault (x : Fin 2) (s : State) : (loaded x s).fault = s.fault := rfl

theorem loaded_sig (x : Fin 2) (s : State) : (loaded x s).sig = s.sig := rfl

theorem loaded_cmp (x : Fin 2) (s : State) : (loaded x s).cmp = s.cmp.set x (formatText s) := rfl

/-- A load does not change the text. -/
theorem formatText_loaded (x : Fin 2) (s : State) : formatText (loaded x s) = formatText s := by
  have hbs : (loaded x s).bs = s.bs := rfl
  simp only [formatText, hbs, loaded_sig]

/-- Both loads leave the text in both buffers. -/
theorem loaded_loaded_cmp (s : State) : (loaded 1 (loaded 0 s)).cmp = #v[formatText s, formatText s] := by
  rw [loaded_cmp, formatText_loaded, loaded_cmp]
  simp

end Sys2Proof.Machine
end

section
/-! SUPPORT. `lev` at the ends of its texts: reading both backwards does not change it (43_comparator.md R190, log entry
10). -/

namespace Sys2Proof.Machine

open Sys2Proof.Safety

theorem edit_reverse {x y : Text} (h : Edit x y) : Edit x.reverse y.reverse := by
  cases h with
  | insert u v c => simpa using Edit.insert v.reverse u.reverse c
  | delete u v c => simpa using Edit.delete v.reverse u.reverse c
  | substitute u v c d => simpa using Edit.substitute v.reverse u.reverse c d

theorem edits_reverse {n : Nat} {x y : Text} (h : Edits n x y) : Edits n x.reverse y.reverse := by
  induction h with
  | none x => exact .none _
  | cons first _ ih => exact .cons (edit_reverse first) ih

theorem lev_reverse_le (x y : Text) : lev x.reverse y.reverse ≤ lev x y :=
  lev_le_count_of_edits (edits_reverse (edits_lev x y))

/-- The edits of one direction serve the other. -/
theorem lev_reverse (x y : Text) : lev x.reverse y.reverse = lev x y :=
  le_antisymm (lev_reverse_le x y) (by simpa using lev_reverse_le x.reverse y.reverse)

/-- The recurrence at the last characters. -/
theorem lev_append_singleton (x y : Text) (a b : Byte) :
    lev (x ++ [a]) (y ++ [b])
      = min (min (lev x (y ++ [b]) + 1) (lev (x ++ [a]) y + 1)) (lev x y + if a = b then 0 else 1) := by
  rw [← lev_reverse (x ++ [a]), ← lev_reverse x, ← lev_reverse (x ++ [a]), ← lev_reverse x y]
  simp only [List.reverse_append, List.reverse_singleton, List.singleton_append]
  exact lev_cons_cons a b x.reverse y.reverse

end Sys2Proof.Machine
end

section
/-! PROOFS. The statements about the comparator's operands and its distance read from the front (43_comparator.md). -/

namespace Sys2Proof.Proofs

open Sys2Proof.Machine Sys2Proof.Safety

/-- Settles O44: the word and its reserved bits from the encoding, and the two ways of `cmpPush`. -/
theorem cmpPushAppendsUnlessFull : Obligations.CmpPushAppendsUnlessFull :=
  ⟨reservedBitsFault_cmpPush, fun x c => ⟨wordOf_encode (.cmpPush x c), fun _ =>
    ⟨exec_cmpPush_of_room, exec_cmpPush_of_full⟩⟩⟩

/-- Settles O49: a beginning with one more character ends in it, and the recurrence holds at last characters. -/
theorem levMeetsPrefixRecurrence : Obligations.LevMeetsPrefixRecurrence := by
  refine fun x y => ⟨fun i hi => ?_, fun j hj => ?_, fun i j hi hj => ?_⟩
  · rw [lev_nil_right, List.length_take_of_le hi]
  · rw [lev_nil_left, List.length_take_of_le hj]
  · rw [List.take_succ_eq_append_getElem hi, List.take_succ_eq_append_getElem hj]
    exact lev_append_singleton _ _ _ _

/-- Settles O50: the comparison of well-formed texts is symmetric, and 0 on equal ones. -/
theorem comparisonIsSymmetric : Obligations.ComparisonIsSymmetric := by
  refine ⟨fun s t ha hb h0 h1 => ⟨_, _, exec_cmpRun s, ?_⟩, fun s ha h1 => exec_cmpRun_of_same ha rfl h1⟩
  rw [exec_cmpRun, h0, h1, compareTexts_comm hb ha]

/-- Settles O51: each load copies the same well-formed text, and the comparison of a text with itself is 0. -/
theorem finalizedSignatureComparesToZero : Obligations.FinalizedSignatureComparesToZero := by
  intro s hinv hspace hest hfits
  have hgram := grammatical_formatText hinv hspace hest
  have hidle : s.est ≠ .idle := by simp [hest]
  have h0 := exec_cmpLdf_eq_loaded 0 hidle hfits
  have h1 : exec (.cmpLdf 1) (loaded 0 s) = .next (loaded 1 (loaded 0 s)) :=
    exec_cmpLdf_eq_loaded 1 (loaded_est 0 s ▸ hidle) (by rwa [formatText_loaded])
  have h2 : exec .cmpRun (loaded 1 (loaded 0 s)) = .next (answered 0 0 (loaded 1 (loaded 0 s))) :=
    exec_cmpRun_of_same hgram (by rw [loaded_loaded_cmp]; rfl) (by rw [loaded_loaded_cmp]; rfl)
  refine ⟨hgram, answered 0 0 (loaded 1 (loaded 0 s)), ?_, rfl,
    (loaded_fault 1 _).trans (loaded_fault 0 s), (loaded_sig 1 _).trans (loaded_sig 0 s)⟩
  rw [perform_cons _ _ s _ h0, perform_cons _ _ _ _ h1, perform_cons _ _ _ _ h2, perform]

end Sys2Proof.Proofs
end
